-- ==== Sys2Proof/Word.lean ====
section
/-! DEFINITION. The word types of the block (spec 00_scope.md R8, R11, R12; 90_conflicts.md C1). -/

namespace Sys2Proof

/-- A command word, a data word, a value entry, or a response's data: 32 bits, unsigned, bit 0
least significant (R8, R11, R12). -/
abbrev Word := BitVec 32

/-- A plane word: C bits, bit `i` belonging to lane `i` (R8, R23). With C fixed at 32 one 32-bit word
type serves as a plane word, a value entry and a data word (90_conflicts.md C1); the NUMBER of lanes
`Config.C` and the NUMBER of planes `Config.WMAX` stay two parameters. -/
abbrev PlaneWord := BitVec 32

end Sys2Proof
end

