-- ==== Sys2Proof/Config.lean ====
section
/-! DEFINITION. The implementation parameters of 00_scope.md R8. C, WMAX, NV and NL are fixed in this
revision; WIDTH_SET is the one model parameter and is carried as plain data (`Params`). -/

namespace Sys2Proof

namespace Config

/-- C (PLANE_CAP): bits of a plane word, the largest lane count (R8, R9). -/
abbrev C : Nat := 32

/-- WMAX: plane words of a lane buffer, the largest width (R8). Never derived from `C` (C1). -/
abbrev WMAX : Nat := 32

/-- NV: number of value buffers (R8). -/
abbrev NV : Nat := 4

/-- NL: number of lane buffers (R8). -/
abbrev NL : Nat := 4

/-- The ID byte of CFG (R2, R103). -/
def idByte : Nat := 0x58

/-- The hardware revision (R2, R103). -/
def revision : Nat := 1

end Config

/-- The model parameter of R8: the legal widths WIDTH_SET, as a list of which only the
membership matters (log entry 5). -/
structure Params where
  widthSet : List Nat
  deriving DecidableEq, Repr

/-- The default WIDTH_SET, {1, 2, .., 32} (R8). -/
def Params.default : Params := ⟨List.range' 1 32⟩

end Sys2Proof
end

