-- ==== Sys2Proof/Syntax.lean ====
section
/-! DEFINITION. The commands of the block: one constructor of `Instr` per row of
spec/opcode_table.json (30_encoding.md R51), the command unit (R49) and the pseudo-instructions (R63). -/

namespace Sys2Proof

/-- A value buffer V0 .. V3 (R22, R57). -/
abbrev ValueBuf := Fin Config.NV

/-- A lane buffer L0 .. L3 (R23, R57). -/
abbrev LaneBuf := Fin Config.NL

/-- One command unit: a command word and a data word, accepted together (R49). -/
structure Command where
  word : Word
  data : Word
  deriving DecidableEq, Repr

/-- The commands (R51). Widths, lane counts and indices are the numbers of the assembler syntax (R62),
taken at face value (R54, R55, R56); that they fit their 6-bit fields is `Instr.wellFormed`. The data
word is an operand of the two commands that read it (R59). -/
inductive Instr where
  /-- NOP (R100). -/
  | nop
  /-- WVAL Vd, idx, #data (R90). -/
  | wval (d : ValueBuf) (idx : Nat) (data : Word)
  /-- RVAL Vs, idx (R91). -/
  | rval (s : ValueBuf) (idx : Nat)
  /-- WPLANE Ld, p, #data (R92). -/
  | wplane (d : LaneBuf) (p : Nat) (data : Word)
  /-- RPLANE Ls, p (R93). -/
  | rplane (s : LaneBuf) (p : Nat)
  /-- LSHAPE Ld, w, n (R94). -/
  | lshape (d : LaneBuf) (w n : Nat)
  /-- RTAG Ls (R95). -/
  | rtag (s : LaneBuf)
  /-- ENCODE Ld, Vs, w, n with t = false, ENCODE.T with t = true (R70). -/
  | encode (d : LaneBuf) (s : ValueBuf) (w n : Nat) (t : Bool)
  /-- DECODE Vd, Ls (R71). -/
  | decode (d : ValueBuf) (s : LaneBuf)
  /-- ADD Ld, La, Lb (R82). -/
  | add (d a b : LaneBuf)
  /-- RCARRY Ls (R96). -/
  | rcarry (s : LaneBuf)
  /-- RSTAT (R101). -/
  | rstat
  /-- CLRSTAT (R102). -/
  | clrstat
  /-- RDCFG (R103). -/
  | rdcfg
  deriving DecidableEq, Repr

/-- The pseudo-instructions of the assembler (R63). -/
inductive Pseudo where
  /-- VLOAD Vd, then the listed values x0 .. xk (k < C). -/
  | vload (d : ValueBuf) (xs : List Word)
  /-- VREAD Vs, n. -/
  | vread (s : ValueBuf) (n : Nat)
  /-- LZERO Ld, w, n. -/
  | lzero (d : LaneBuf) (w n : Nat)
  /-- ADDV Vd, Va, Vb, w, n (uses L0, L1 and L2 as scratch). -/
  | addv (d a b : ValueBuf) (w n : Nat)
  deriving DecidableEq, Repr

end Sys2Proof
end

