-- ==== Sys2Proof/WellFormed.lean ====
section
/-! DEFINITION. When a command can be written in its encoding, when a parameter set is one of R8's, and
when a pseudo-instruction has an expansion. -/

namespace Sys2Proof

/-- A number fits a 6-bit field (R50, R62: the assembler "rejects values that do not fit 6 bits"). -/
def fits6 (k : Nat) : Bool := k < 64

/-- A command whose numbers fit their fields. W outside WIDTH_SET, N > C and an index out of range are
well formed: the hardware raises those errors (R52, R62). -/
def Instr.wellFormed : Instr → Bool
  | .nop => true
  | .wval _ idx _ => fits6 idx
  | .rval _ idx => fits6 idx
  | .wplane _ p _ => fits6 p
  | .rplane _ p => fits6 p
  | .lshape _ w n => fits6 w && fits6 n
  | .rtag _ => true
  | .encode _ _ w n _ => fits6 w && fits6 n
  | .decode _ _ => true
  | .add _ _ _ => true
  | .rcarry _ => true
  | .rstat => true
  | .clrstat => true
  | .rdcfg => true

/-- A legal WIDTH_SET: it contains 8, 16 and 32, and every member lies in 1 .. WMAX (R8, D5). -/
def Params.wellFormed (p : Params) : Bool :=
  p.widthSet.contains 8 && p.widthSet.contains 16 && p.widthSet.contains 32 &&
    p.widthSet.all fun w => 1 ≤ w && w ≤ Config.WMAX

/-- A pseudo-instruction whose expansion the assembler can write (R63): VLOAD lists 1 to C values,
and every number the expansion writes into a field fits it. -/
def Pseudo.wellFormed : Pseudo → Bool
  | .vload _ xs => 1 ≤ xs.length && xs.length ≤ Config.C
  | .vread _ n => n ≤ 64
  | .lzero _ w n => fits6 w && fits6 n
  | .addv _ _ _ w n => fits6 w && fits6 n

end Sys2Proof
end

