-- ==== Sys2Proof/Decode.lean ====
section
/-! DEFINITION. Command encoding (30_encoding.md): fields, opcode map, strict decoder, encoder. -/

namespace Sys2Proof

/-! ### Fields of the command word (R50) -/

/-- OP, bits 31:28. -/
def fieldOP (cmd : Word) : BitVec 4 := cmd.extractLsb' 28 4

/-- D, bits 27:26. -/
def fieldD (cmd : Word) : Fin 4 := (cmd.extractLsb' 26 2).toFin

/-- S1, bits 25:24. -/
def fieldS1 (cmd : Word) : Fin 4 := (cmd.extractLsb' 24 2).toFin

/-- S2, bits 23:22. -/
def fieldS2 (cmd : Word) : Fin 4 := (cmd.extractLsb' 22 2).toFin

/-- W, bits 21:16, at face value (R54). -/
def fieldW (cmd : Word) : Nat := (cmd.extractLsb' 16 6).toNat

/-- N, bits 15:10, at face value (R55). -/
def fieldN (cmd : Word) : Nat := (cmd.extractLsb' 10 6).toNat

/-- T, bit 9 (R58). -/
def fieldT (cmd : Word) : Bool := cmd.getLsbD 9

/-- IDX, bits 5:0, at face value (R56). -/
def fieldIDX (cmd : Word) : Nat := (cmd.extractLsb' 0 6).toNat

/-! ### The opcode map (R51) -/

/-- The fourteen defined opcodes. -/
inductive Opcode where
  | nop | wval | rval | wplane | rplane | lshape | rtag | encode | decode | add | rcarry | rstat
  | clrstat | rdcfg
  deriving DecidableEq, Repr

/-- The opcode a value of OP names; 0xE and 0xF name none (R51, R60). -/
def opcodeOf (op : BitVec 4) : Option Opcode :=
  match op.toNat with
  | 0x0 => some .nop
  | 0x1 => some .wval
  | 0x2 => some .rval
  | 0x3 => some .wplane
  | 0x4 => some .rplane
  | 0x5 => some .lshape
  | 0x6 => some .rtag
  | 0x7 => some .encode
  | 0x8 => some .decode
  | 0x9 => some .add
  | 0xA => some .rcarry
  | 0xB => some .rstat
  | 0xC => some .clrstat
  | 0xD => some .rdcfg
  | _ => none

/-- The match word of an opcode's row (R51). -/
def Opcode.matchWord : Opcode → Word
  | .nop => 0x00000000
  | .wval => 0x10000000
  | .rval => 0x20000000
  | .wplane => 0x30000000
  | .rplane => 0x40000000
  | .lshape => 0x50000000
  | .rtag => 0x60000000
  | .encode => 0x70000000
  | .decode => 0x80000000
  | .add => 0x90000000
  | .rcarry => 0xA0000000
  | .rstat => 0xB0000000
  | .clrstat => 0xC0000000
  | .rdcfg => 0xD0000000

/-- The mask word of an opcode's row (R51): a 1 for every bit the opcode fixes. -/
def Opcode.maskWord : Opcode → Word
  | .nop => 0xFFFFFFFF
  | .wval => 0xF3FFFFC0
  | .rval => 0xFCFFFFC0
  | .wplane => 0xF3FFFFC0
  | .rplane => 0xFCFFFFC0
  | .lshape => 0xF3C003FF
  | .rtag => 0xFCFFFFFF
  | .encode => 0xF0C001FF
  | .decode => 0xF0FFFFFF
  | .add => 0xF03FFFFF
  | .rcarry => 0xFCFFFFFF
  | .rstat => 0xFFFFFFFF
  | .clrstat => 0xFFFFFFFF
  | .rdcfg => 0xFFFFFFFF

/-- The command an opcode's row spells, with the operand fields the row uses (R51, R57); the data word
is an operand of WVAL and WPLANE only (R59). -/
def Opcode.assemble (op : Opcode) (cmd data : Word) : Instr :=
  match op with
  | .nop => .nop
  | .wval => .wval (fieldD cmd) (fieldIDX cmd) data
  | .rval => .rval (fieldS1 cmd) (fieldIDX cmd)
  | .wplane => .wplane (fieldD cmd) (fieldIDX cmd) data
  | .rplane => .rplane (fieldS1 cmd) (fieldIDX cmd)
  | .lshape => .lshape (fieldD cmd) (fieldW cmd) (fieldN cmd)
  | .rtag => .rtag (fieldS1 cmd)
  | .encode => .encode (fieldD cmd) (fieldS1 cmd) (fieldW cmd) (fieldN cmd) (fieldT cmd)
  | .decode => .decode (fieldD cmd) (fieldS1 cmd)
  | .add => .add (fieldD cmd) (fieldS1 cmd) (fieldS2 cmd)
  | .rcarry => .rcarry (fieldS1 cmd)
  | .rstat => .rstat
  | .clrstat => .clrstat
  | .rdcfg => .rdcfg

/-! ### The decoder (R52, R53) -/

/-- Why a command word spells no command. Both are the error ILLEGAL (R52, R120). -/
inductive DecodeError where
  /-- OP is 0xE or 0xF (R60, U1). -/
  | reservedOpcode
  /-- A bit is 1 in a field the opcode does not use, RSV among them (R52, U2). -/
  | unusedFieldSet
  deriving DecidableEq, Repr

/-- The decoder, total on every command word (R53). Which command it is, and whether it is one, is read
from `cmd` alone (R52); `data` is only handed on as the operand of WVAL and WPLANE (R59). -/
def decodeCommand (cmd data : Word) : Except DecodeError Instr :=
  match opcodeOf (fieldOP cmd) with
  | none => .error .reservedOpcode
  | some op =>
    if cmd &&& op.maskWord = op.matchWord then .ok (op.assemble cmd data)
    else .error .unusedFieldSet

/-! ### The encoder (R50, R51, R62) -/

/-- The command word with the given fields, in the order of R50's bit pattern:
OP, D, S1, S2, W, N, T, RSV = 0, IDX. -/
def packFields (op : BitVec 4) (d s1 s2 : BitVec 2) (w n : BitVec 6) (t : BitVec 1)
    (idx : BitVec 6) : Word :=
  op ++ d ++ s1 ++ s2 ++ w ++ n ++ t ++ (0 : BitVec 3) ++ idx

/-- The opcode of a command (R51). -/
def Instr.opcode : Instr → Opcode
  | .nop => .nop
  | .wval _ _ _ => .wval
  | .rval _ _ => .rval
  | .wplane _ _ _ => .wplane
  | .rplane _ _ => .rplane
  | .lshape _ _ _ => .lshape
  | .rtag _ => .rtag
  | .encode _ _ _ _ _ => .encode
  | .decode _ _ => .decode
  | .add _ _ _ => .add
  | .rcarry _ => .rcarry
  | .rstat => .rstat
  | .clrstat => .clrstat
  | .rdcfg => .rdcfg

/-- The value of OP that names an opcode (R51). -/
def Opcode.number : Opcode → BitVec 4
  | .nop => 0x0
  | .wval => 0x1
  | .rval => 0x2
  | .wplane => 0x3
  | .rplane => 0x4
  | .lshape => 0x5
  | .rtag => 0x6
  | .encode => 0x7
  | .decode => 0x8
  | .add => 0x9
  | .rcarry => 0xA
  | .rstat => 0xB
  | .clrstat => 0xC
  | .rdcfg => 0xD

/-- A buffer index as its 2-bit field (R57). -/
def bufferBits (b : Fin 4) : BitVec 2 := BitVec.ofNat 2 b.val

/-- The command word of a well-formed command: the fields its row of R62 lists, every other field 0. -/
def encodeWord (i : Instr) : Word :=
  let op := i.opcode.number
  match i with
  | .nop => packFields op 0 0 0 0 0 0 0
  | .wval d idx _ => packFields op (bufferBits d) 0 0 0 0 0 (BitVec.ofNat 6 idx)
  | .rval s idx => packFields op 0 (bufferBits s) 0 0 0 0 (BitVec.ofNat 6 idx)
  | .wplane d p _ => packFields op (bufferBits d) 0 0 0 0 0 (BitVec.ofNat 6 p)
  | .rplane s p => packFields op 0 (bufferBits s) 0 0 0 0 (BitVec.ofNat 6 p)
  | .lshape d w n => packFields op (bufferBits d) 0 0 (BitVec.ofNat 6 w) (BitVec.ofNat 6 n) 0 0
  | .rtag s => packFields op 0 (bufferBits s) 0 0 0 0 0
  | .encode d s w n t =>
    packFields op (bufferBits d) (bufferBits s) 0 (BitVec.ofNat 6 w) (BitVec.ofNat 6 n)
      (BitVec.ofBool t) 0
  | .decode d s => packFields op (bufferBits d) (bufferBits s) 0 0 0 0 0
  | .add d a b => packFields op (bufferBits d) (bufferBits a) (bufferBits b) 0 0 0 0
  | .rcarry s => packFields op 0 (bufferBits s) 0 0 0 0 0
  | .rstat => packFields op 0 0 0 0 0 0 0
  | .clrstat => packFields op 0 0 0 0 0 0 0
  | .rdcfg => packFields op 0 0 0 0 0 0 0

/-- The data word of a command: its `#data` operand, and 0 for a command without one (R62). -/
def encodeData : Instr → Word
  | .wval _ _ data => data
  | .wplane _ _ data => data
  | .nop => 0
  | .rval _ _ => 0
  | .rplane _ _ => 0
  | .lshape _ _ _ => 0
  | .rtag _ => 0
  | .encode _ _ _ _ _ => 0
  | .decode _ _ => 0
  | .add _ _ _ => 0
  | .rcarry _ => 0
  | .rstat => 0
  | .clrstat => 0
  | .rdcfg => 0

/-- The two words of a command (R49, R62). -/
def encodeInstr (i : Instr) : Command := ⟨encodeWord i, encodeData i⟩

/-! ### Reading a row of the opcode table -/

/-- The command unit whose bits are `w`: bits 31:0 are the command word, bits 63:32 the data word; the
bits at and above `nbits` are 0 (DESIGN CHOICE, log entry 11). -/
def commandOfBits (nbits w : Nat) : Command :=
  let bits := w % 2 ^ nbits
  ⟨BitVec.ofNat 32 bits, BitVec.ofNat 32 (bits / 2 ^ 32)⟩

/-- The command the decoder reads from an instruction whose bits are `w`. -/
def decodeTableWord (nbits w : Nat) : Option Instr :=
  let c := commandOfBits nbits w
  match decodeCommand c.word c.data with
  | .ok i => some i
  | .error _ => none

end Sys2Proof
end

