-- ==== Sys2Proof/Machine/State.lean ====
section
/-! DEFINITION. The state of the block as plain data: the architectural state of 10_state.md R30, the
hidden state of R32, and the host's side of the command port. -/

namespace Sys2Proof.Machine

open Sys2Proof.Config (C WMAX NV NL)

/-- The error codes 0 to 8 (R120), by name; `ErrCode.code` gives their numbers. Codes 9 to 15 are
reserved and never produced. -/
inductive ErrCode where
  | ok | illegal | capacity | range | shape | width | uninit | index | aliasing
  deriving DecidableEq, Repr

/-- A response: 4-bit error code `rsp_err` and 32-bit `rsp_data` (R49, R145). -/
structure Response where
  err : BitVec 4
  data : Word
  deriving DecidableEq, Repr

/-- A shape tag, 13 bits (R25). -/
structure Tag where
  valid : Bool
  w : BitVec 6
  n : BitVec 6
  deriving DecidableEq, Repr

/-- A lane buffer: WMAX plane words (R23), its shape tag (R25) and its carry register (R26). -/
structure LaneBuffer where
  planes : Vector PlaneWord WMAX
  tag : Tag
  carry : PlaneWord
  deriving DecidableEq, Repr

/-- The sequencer phase (R32) with the hidden registers that exist in it. IDLE is `idle`. BUSY is
`check`, the check cycle, and `run`, whose arguments are the plane/lane step counter and ADD's running
carry (R151). RESP is `resp`, with the pending response. -/
inductive Phase where
  | idle
  | check
  | run (counter : Nat) (running : PlaneWord)
  | resp (r : Response)
  deriving DecidableEq, Repr

/-- What the host does next at the port: offer a command until it is accepted and then take its response
(R146), or hold `rst` high for one edge (R141). The model's own (log entries 1, 2). -/
inductive HostInput where
  | command (c : Command)
  | reset
  deriving DecidableEq, Repr

/-- The whole machine. -/
structure State where
  /-- The model parameter WIDTH_SET, from which CFG is computed (R8, R29). No step writes it. DESIGN
  CHOICE, log entry 5. -/
  params : Params
  /-- The value buffers `V[v][i]` (R22). -/
  value : Vector (Vector Word C) NV
  /-- The lane buffers: `P[l][p]`, `TAG[l]`, `CARRY[l]` (R23, R25, R26). -/
  lane : Vector LaneBuffer NL
  /-- ERRACC (R28). -/
  erracc : BitVec 16
  /-- The sequencer phase, step counter, running carry and pending response (R32). -/
  phase : Phase
  /-- The latched command word and data word (R32, R46). -/
  latched : Option Command
  /-- The MODEL's own: the command the host offered at the last edge without its being accepted, which
  it must keep offering (R146 duty (a)). DEDUCED, log entry 3. -/
  held : Option Command
  /-- The MODEL's own: what the host does next, in order. DESIGN CHOICE, log entries 1, 2. -/
  inbox : List HostInput
  /-- The MODEL's own: the responses the host has taken, in order. DESIGN CHOICE, log entries 1, 2. -/
  outbox : List Response
  deriving DecidableEq, Repr

/-- Why a step stops with a fault. -/
inductive Fault where
  /-- Raised by `State.takeResponse` when a pending response carries an error code 9 to 15: reserved
  and never produced, so a model that sees one has a bug and is stuck (R120; 93, U3). Safe: no
  command produces one. -/
  | reservedErrorCode (code : BitVec 4)
  deriving DecidableEq, Repr

/-- Why a step is refused. -/
inductive Refusal where
  /-- An instruction whose meaning has not been written. Raised by no arm of `exec`. -/
  | notModelled (mnemonic : String)
  /-- Raised by `clockEdge` and `step` when the host changes or drops a command that it offered and the
  block has not yet accepted (R146 duty (a)): which command is accepted is undefined, and a model
  refuses such a launch (R147; 93, U8). Safe. -/
  | offerNotHeld
  deriving DecidableEq, Repr

/-- A value buffer after reset: every entry 0 (R140). -/
def zeroValues : Vector Word C := Vector.replicate C 0

/-- A shape tag after reset (R140). -/
def Tag.unshaped : Tag := ⟨false, 0, 0⟩

/-- A lane buffer after reset: every plane 0, the tag invalid, the carry 0 (R140). -/
def LaneBuffer.cleared : LaneBuffer := ⟨Vector.replicate WMAX 0, Tag.unshaped, 0⟩

/-- The machine right after reset (R140), with the default parameters (R8) and a host that has driven
nothing yet (log entries 2, 3, 5). -/
def State.reset : State where
  params := Params.default
  value := Vector.replicate NV zeroValues
  lane := Vector.replicate NL LaneBuffer.cleared
  erracc := 0
  phase := .idle
  latched := none
  held := none
  inbox := []
  outbox := []

end Sys2Proof.Machine
end

