-- ==== Sys2Proof/Machine/Flags.lean ====
section
/-! DEFINITION. The flag computations: the full adder and its carry chain (41_lane_adder.md R80, R81),
and the error codes and their ERRACC bits (60_exceptions.md R120, R121; 10_state.md R28). -/

namespace Sys2Proof.Machine

/-! ### The full-adder plane step (R80) -/

/-- `partial = x XOR y XOR c` (R80). -/
def fullAdderSum (x y c : PlaneWord) : PlaneWord := x ^^^ y ^^^ c

/-- `nextCarry = (x AND y) OR (c AND (x XOR y))` (R80). -/
def fullAdderCarry (x y c : PlaneWord) : PlaneWord := (x &&& y) ||| (c &&& (x ^^^ y))

/-! ### The chain `addPlanes` (R81) -/

/-- The carry word entering plane `p`: 0 at plane 0, then each plane's carry-out in increasing
significance order. The inputs are masked with `m`. `carryInto A B m W` is `carryOut` (R81). -/
def carryInto (A B : Nat → PlaneWord) (m : PlaneWord) : Nat → PlaneWord
  | 0 => 0
  | p + 1 => fullAdderCarry (A p &&& m) (B p &&& m) (carryInto A B m p)

/-- The sum word of plane `p` (R81). -/
def sumPlane (A B : Nat → PlaneWord) (m : PlaneWord) (p : Nat) : PlaneWord :=
  fullAdderSum (A p &&& m) (B p &&& m) (carryInto A B m p)

/-! ### Error codes (R120) and ERRACC (R28) -/

/-- The 4-bit number of an error code (R120). -/
def ErrCode.code : ErrCode → BitVec 4
  | .ok => 0
  | .illegal => 1
  | .capacity => 2
  | .range => 3
  | .shape => 4
  | .width => 5
  | .uninit => 6
  | .index => 7
  | .aliasing => 8

/-- ERRACC with the bit of an error code set: `ERRACC[e] <- 1` (R121). -/
def accumulate (acc : BitVec 16) (e : ErrCode) : BitVec 16 := acc ||| (1 <<< e.code.toNat)

end Sys2Proof.Machine
end

