-- ==== Sys2Proof/Machine/Operands.lean ====
section
/-! DEFINITION. Operand forms: lane masks, the transposition functions (40_transposer.md R65, R66, R69),
shape and index checks (30_encoding.md R54 to R56), and the tag and CFG words (R95, R103). -/

namespace Sys2Proof.Machine

open Sys2Proof.Config (C WMAX NV NL)

/-! ### Primitives of R13 -/

/-- `laneMask(N)`: bits 0 .. N-1 are 1, the others 0 (R13). A shift by the full width gives 0 (R13), so
`laneMask C` is all ones. -/
def laneMask (n : Nat) : PlaneWord := ((1 : PlaneWord) <<< n) - 1

/-- `OR over i in [0,n) of f i`; 0 when the range is empty (R13). -/
def orOver : Nat → (Nat → Word) → Word
  | 0, _ => 0
  | n + 1, f => orOver n f ||| f n

/-- Whether some `i < n` satisfies `f`. -/
def anyBelow : Nat → (Nat → Bool) → Bool
  | 0, _ => false
  | n + 1, f => anyBelow n f || f n

/-! ### The transposition functions -/

/-- `toLane(vals, W, N)[b]` (R65). -/
def toLane (vals : Nat → Word) (n b : Nat) : PlaneWord :=
  orOver n fun i => ((vals i >>> b) &&& 1) <<< i

/-- `toValue(planes, W, N)[i]` (R66). -/
def toValue (planes : Nat → PlaneWord) (w i : Nat) : Word :=
  orOver w fun b => ((planes b >>> i) &&& 1) <<< b

/-- `outOfRange(vals, W, N)`: some entry below N has a bit set at or above position W (R69). -/
def outOfRange (vals : Nat → Word) (w n : Nat) : Bool :=
  anyBelow n fun i => vals i >>> w != 0

/-! ### Checks -/

/-- The index check: INDEX for an index at or beyond the range, no wrap (R56). -/
def checkIndex (idx bound : Nat) : Option ErrCode :=
  if bound ≤ idx then some .index else none

/-- The shape check of LSHAPE and ENCODE: CAPACITY if N > C, then WIDTH if W is not in WIDTH_SET
(R54, R55, R122). -/
def checkShape (params : Params) (w n : Nat) : Option ErrCode :=
  if C < n then some .capacity
  else if w ∈ params.widthSet then none
  else some .width

/-! ### Tags and words -/

/-- The tag {1, W, N} (R25). -/
def Tag.ofShape (w n : Nat) : Tag := ⟨true, BitVec.ofNat 6 w, BitVec.ofNat 6 n⟩

/-- The word RTAG returns: VALID in bit 31, W in bits 21:16, N in bits 15:10 (R95). -/
def Tag.word (t : Tag) : Word :=
  ((BitVec.ofBool t.valid).setWidth 32 <<< 31) ||| (t.w.setWidth 32 <<< 16) |||
    (t.n.setWidth 32 <<< 10)

/-- FULLW: whether WIDTH_SET is {1, .., 32} (R103). -/
def fullWidth (p : Params) : Bool :=
  (List.range' 1 32).all (fun w => p.widthSet.contains w) &&
    p.widthSet.all fun w => 1 ≤ w && w ≤ 32

/-- CFG (R103): ID 31:24, bits 23:21 zero, FULLW bit 20, REV 19:16, NL-1 15:14, NV-1 13:12,
WMAX 11:6, C 5:0. -/
def cfgWord (p : Params) : Word :=
  BitVec.ofNat 8 Config.idByte ++ (0 : BitVec 3) ++ BitVec.ofBool (fullWidth p) ++
    BitVec.ofNat 4 Config.revision ++ BitVec.ofNat 2 (NL - 1) ++ BitVec.ofNat 2 (NV - 1) ++
    BitVec.ofNat 6 WMAX ++ BitVec.ofNat 6 C

end Sys2Proof.Machine
end

