-- ==== Sys2Proof/Machine/Ops.lean ====
section
/-! DEFINITION. The named operations over the buffers, the status register and the response: every meaning
is written over these. -/

namespace Sys2Proof.Machine

open Sys2Proof.Config (C WMAX NV NL)

/-- The outcome of one step of the block. -/
abbrev StepResult := Host.Outcome State Fault Refusal

/-- Goes on with `f` from a next state; a fault or a refusal stands. -/
def andThen (o : StepResult) (f : State → StepResult) : StepResult :=
  match o with
  | .next t => f t
  | .fault r => .fault r
  | .refused r => .refused r

/-! ### Reads (R13) -/

/-- `V[v][i]` (R22). Every command checks `i < C` before it reads (R56); the 0 beyond is a DESIGN CHOICE
no command reaches (log entry 9). -/
def State.entry (s : State) (v : ValueBuf) (i : Nat) : Word := (s.value[v])[i]?.getD 0

/-- `P[l][p]` (R23). Every command checks `p < WMAX`, or takes `p` below a legal width; the 0 beyond is a
DESIGN CHOICE (log entry 9). -/
def State.plane (s : State) (l : LaneBuf) (p : Nat) : PlaneWord := (s.lane[l]).planes[p]?.getD 0

/-- `TAG[l]` (R25). -/
def State.tag (s : State) (l : LaneBuf) : Tag := (s.lane[l]).tag

/-- The W of `TAG[l]` as a number (R25). -/
def State.tagW (s : State) (l : LaneBuf) : Nat := (s.tag l).w.toNat

/-- The N of `TAG[l]` as a number (R25). -/
def State.tagN (s : State) (l : LaneBuf) : Nat := (s.tag l).n.toNat

/-- `CARRY[l]` (R26). -/
def State.carry (s : State) (l : LaneBuf) : PlaneWord := (s.lane[l]).carry

/-- CFG, a constant of the parameters (R29, R103). -/
def State.cfg (s : State) : Word := cfgWord s.params

/-! ### Writes (R13) -/

/-- Replaces all C entries of a value buffer. -/
def State.setValues (s : State) (v : ValueBuf) (b : Vector Word C) : State :=
  { s with value := s.value.set v b }

/-- `V[v][i] <- x`. -/
def State.setEntry (s : State) (v : ValueBuf) (i : Nat) (x : Word) : State :=
  s.setValues v ((s.value[v]).setIfInBounds i x)

/-- Replaces a lane buffer: its planes, tag and carry register. -/
def State.setLane (s : State) (l : LaneBuf) (b : LaneBuffer) : State :=
  { s with lane := s.lane.set l b }

/-- `P[l][p] <- x`; the tag and the carry register are unchanged (R92). -/
def State.setPlane (s : State) (l : LaneBuf) (p : Nat) (x : PlaneWord) : State :=
  s.setLane l { s.lane[l] with planes := (s.lane[l]).planes.setIfInBounds p x }

/-- `TAG[l] <- {1, w, n}` and `CARRY[l] <- c`; the planes are unchanged. -/
def State.setShape (s : State) (l : LaneBuf) (w n : Nat) (c : PlaneWord) : State :=
  s.setLane l { s.lane[l] with tag := Tag.ofShape w n, carry := c }

/-- The contents ENCODE and ADD give their destination: planes `f 0` .. `f (w-1)`, planes w .. WMAX-1
zero, tag {1, w, n}, carry `c` (R70, R82). -/
def laneImage (f : Nat → PlaneWord) (w n : Nat) (c : PlaneWord) : LaneBuffer where
  planes := Vector.ofFn fun p : Fin WMAX => if p.val < w then f p.val else 0
  tag := Tag.ofShape w n
  carry := c

/-- The contents DECODE gives its destination: entries `f 0` .. `f (n-1)`, entries n .. C-1 zero (R71). -/
def valueImage (f : Nat → Word) (n : Nat) : Vector Word C :=
  Vector.ofFn fun i : Fin C => if i.val < n then f i.val else 0

/-! ### Completing a command -/

/-- `respond(OK, data)`: the command completes, ERRACC is unchanged (R13, R121). -/
def State.respond (s : State) (data : Word) : State :=
  { s with phase := .resp ⟨ErrCode.ok.code, data⟩ }

/-- `raise e`: the command completes with error code `e` and response data 0, ERRACC gets the bit of
`e`, and nothing else changes (R13, R121). This is the block's whole error mechanism: there is no trap
and no return from one (R123, R124). -/
def State.raise (s : State) (e : ErrCode) : State :=
  { s with erracc := accumulate s.erracc e, phase := .resp ⟨e.code, 0⟩ }

/-- A command whose checks found `err` raises it; otherwise the command completes in `done`. -/
def guarded (err : Option ErrCode) (s done : State) : StepResult :=
  match err with
  | some e => .next (s.raise e)
  | none => .next done

/-! ### The command port -/

/-- The block accepts a command: it latches both words and goes to BUSY (R146). -/
def State.accept (s : State) (c : Command) : State :=
  { s with phase := .check, latched := some c, held := none }

/-- The host takes the pending response and the block goes to IDLE; the latch is empty again (R46,
R146). A reserved error code is stuck (U3; DEDUCED, log entry 7). -/
def State.takeResponse (s : State) : StepResult :=
  match s.phase with
  | .resp r =>
    if r.err.toNat ≤ 8 then
      .next { s with phase := .idle, latched := none, outbox := s.outbox ++ [r] }
    else .fault (.reservedErrorCode r.err)
  | _ => .next s

/-- Reset of the block: every piece of its state takes the value of R140; the parameters are not state
(R140), and the host's side is the host's. A command in flight is abandoned and a pending response
withdrawn (R142). It is applied at every edge with `rst` high (DEDUCED, log entry 6). -/
def State.resetBlock (s : State) : State :=
  { State.reset with params := s.params, held := s.held, inbox := s.inbox, outbox := s.outbox }

end Sys2Proof.Machine
end

