-- ==== Sys2Proof/Machine/BufferAccess.lean ====
section
/-! DEFINITION. The buffer access commands (42_buffer_access.md R90 to R96). -/

namespace Sys2Proof.Machine

open Sys2Proof.Config (C WMAX)

/-- WVAL (R90). -/
def execWval (d : ValueBuf) (idx : Nat) (data : Word) (s : State) : StepResult :=
  guarded (checkIndex idx C) s ((s.setEntry d idx data).respond 0)

/-- RVAL (R91). -/
def execRval (src : ValueBuf) (idx : Nat) (s : State) : StepResult :=
  guarded (checkIndex idx C) s (s.respond (s.entry src idx))

/-- WPLANE (R92): all C bits are stored, tag and carry unchanged. -/
def execWplane (d : LaneBuf) (p : Nat) (data : Word) (s : State) : StepResult :=
  guarded (checkIndex p WMAX) s ((s.setPlane d p data).respond 0)

/-- RPLANE (R93): raw storage, the tag is not checked. -/
def execRplane (src : LaneBuf) (p : Nat) (s : State) : StepResult :=
  guarded (checkIndex p WMAX) s (s.respond (s.plane src p))

/-- LSHAPE (R94): tag and carry are written, the planes are not touched. -/
def execLshape (d : LaneBuf) (w n : Nat) (s : State) : StepResult :=
  guarded (checkShape s.params w n) s ((s.setShape d w n 0).respond 0)

/-- RTAG (R95). -/
def execRtag (src : LaneBuf) (s : State) : StepResult :=
  .next (s.respond (s.tag src).word)

/-- RCARRY (R96). -/
def execRcarry (src : LaneBuf) (s : State) : StepResult :=
  .next (s.respond (s.carry src))

end Sys2Proof.Machine
end

