-- ==== Sys2Proof/Machine/Control.lean ====
section
/-! DEFINITION. The control and status commands (43_control.md R100 to R103). -/

namespace Sys2Proof.Machine

/-- NOP (R100). -/
def execNop (s : State) : StepResult := .next (s.respond 0)

/-- RSTAT (R101): reading does not clear. -/
def execRstat (s : State) : StepResult := .next (s.respond (s.erracc.setWidth 32))

/-- CLRSTAT (R102). -/
def execClrstat (s : State) : StepResult := .next ({ s with erracc := 0 }.respond 0)

/-- RDCFG (R103). -/
def execRdcfg (s : State) : StepResult := .next (s.respond s.cfg)

end Sys2Proof.Machine
end

