-- ==== Sys2Proof/Machine/LaneAdder.lean ====
section
/-! DEFINITION. The lane adder command ADD (41_lane_adder.md R82). -/

namespace Sys2Proof.Machine

/-- ADD's checks, in order: UNINIT, ALIAS, SHAPE (R82, R122). -/
def addCheck (s : State) (d a b : LaneBuf) : Option ErrCode :=
  if (s.tag a).valid = false ∨ (s.tag b).valid = false then some .uninit
  else if d = a ∨ d = b then some .aliasing
  else if (s.tag a).w ≠ (s.tag b).w ∨ (s.tag a).n ≠ (s.tag b).n then some .shape
  else none

/-- ADD (R82): the sum planes of the chain of R81, zero planes above, tag {1, W, N} of the sources, and
`carryOut` into the destination's carry register. -/
def execAdd (d a b : LaneBuf) (s : State) : StepResult :=
  let m := laneMask (s.tagN a)
  let w := s.tagW a
  guarded (addCheck s d a b) s
    ((s.setLane d (laneImage (sumPlane (s.plane a) (s.plane b) m) w (s.tagN a)
      (carryInto (s.plane a) (s.plane b) m w))).respond 0)

end Sys2Proof.Machine
end

