-- ==== Sys2Proof/Machine/Transposer.lean ====
section
/-! DEFINITION. The transposer commands ENCODE and DECODE (40_transposer.md R70, R71). -/

namespace Sys2Proof.Machine

/-- ENCODE's checks, in order: CAPACITY, WIDTH, and RANGE unless truncation is opted in (R70, R122). -/
def encodeCheck (s : State) (src : ValueBuf) (w n : Nat) (t : Bool) : Option ErrCode :=
  match checkShape s.params w n with
  | some e => some e
  | none => if !t && outOfRange (s.entry src) w n then some .range else none

/-- ENCODE and ENCODE.T (R70): the planes of `toLane`, zero planes above, tag {1, w, n}, carry 0. With
t = true the entries are truncated to their low w bits, which are all that `toLane` reads. -/
def execEncode (d : LaneBuf) (src : ValueBuf) (w n : Nat) (t : Bool) (s : State) : StepResult :=
  guarded (encodeCheck s src w n t) s
    ((s.setLane d (laneImage (toLane (s.entry src) n) w n 0)).respond 0)

/-- DECODE's check: UNINIT if the source has no shape (R71). -/
def decodeCheck (s : State) (src : LaneBuf) : Option ErrCode :=
  if (s.tag src).valid then none else some .uninit

/-- DECODE (R71): W and N come from the source's tag; entries N .. C-1 are written 0. -/
def execDecode (d : ValueBuf) (src : LaneBuf) (s : State) : StepResult :=
  guarded (decodeCheck s src) s
    ((s.setValues d (valueImage (toValue (s.plane src) (s.tagW src)) (s.tagN src))).respond 0)

end Sys2Proof.Machine
end

