-- ==== Sys2Proof/Machine/Dispatch.lean ====
section
/-! DEFINITION. exec: one arm per command, each one call of its meaning. -/

namespace Sys2Proof.Machine

def exec (i : Instr) (s : State) : Host.Outcome State Fault Refusal :=
  match i with
  | .nop => Sys2Proof.Machine.execNop s
  | .wval d idx data => Sys2Proof.Machine.execWval d idx data s
  | .rval src idx => Sys2Proof.Machine.execRval src idx s
  | .wplane d p data => Sys2Proof.Machine.execWplane d p data s
  | .rplane src p => Sys2Proof.Machine.execRplane src p s
  | .lshape d w n => Sys2Proof.Machine.execLshape d w n s
  | .rtag src => Sys2Proof.Machine.execRtag src s
  | .encode d src w n t => Sys2Proof.Machine.execEncode d src w n t s
  | .decode d src => Sys2Proof.Machine.execDecode d src s
  | .add d a b => Sys2Proof.Machine.execAdd d a b s
  | .rcarry src => Sys2Proof.Machine.execRcarry src s
  | .rstat => Sys2Proof.Machine.execRstat s
  | .clrstat => Sys2Proof.Machine.execClrstat s
  | .rdcfg => Sys2Proof.Machine.execRdcfg s

end Sys2Proof.Machine
end

