-- ==== Sys2Proof/Machine/Clock.lean ====
section
/-! DEFINITION. The block edge by edge: its ports (70_reset_and_hazards.md R145), the handshake (R146,
R147), reset (R141, R142) and the width-parameterised plane sequencer (R151). One call of `clockEdge` is
one rising edge of `clk`. -/

namespace Sys2Proof.Machine

open Sys2Proof.Config (C WMAX)

/-! ### Ports (R145) -/

/-- The input ports other than `clk`, as sampled at one rising edge. -/
structure Pins where
  rst : Bool
  cmdValid : Bool
  cmdWord : Word
  cmdData : Word
  rspReady : Bool
  deriving DecidableEq, Repr

/-- The command the host offers at an edge, if it offers one. -/
def Pins.offer (p : Pins) : Option Command :=
  if p.cmdValid then some ⟨p.cmdWord, p.cmdData⟩ else none

/-- Pins that offer a command, or none, with `rst` low. -/
def Pins.offering (c : Option Command) (rspReady : Bool) : Pins :=
  match c with
  | some c => ⟨false, true, c.word, c.data, rspReady⟩
  | none => ⟨false, false, 0, 0, rspReady⟩

/-- `cmd_ready`: 1 only in IDLE, and 0 while `rst` is high (R141, R145). -/
def State.cmdReady (s : State) (rst : Bool) : Bool :=
  !rst && decide (s.phase = .idle)

/-- `rsp_valid` with `rsp_err` and `rsp_data`: the offered response, in RESP only, and none while `rst`
is high (R141, R145). While `rsp_valid` is 0 the other two carry no value (DESIGN CHOICE, log entry
8). -/
def State.rspPort (s : State) (rst : Bool) : Option Response :=
  match rst, s.phase with
  | false, .resp r => some r
  | _, _ => none

/-! ### BUSY (R151) -/

/-- The check and execution of the command in the latch, as one unit: ILLEGAL if the word spells no
command (R52), else the command's meaning. -/
def executeCommand (c : Command) (s : State) : StepResult :=
  match decodeCommand c.word c.data with
  | .error _ => .next (s.raise .illegal)
  | .ok i => exec i s

/-- How many plane or value steps a command takes after its check cycle: W for ENCODE and ADD, N for
DECODE, 0 for every other command and for a command that raises an error (R150, R151). -/
def workSteps (i : Instr) (s : State) : Nat :=
  match i with
  | .encode _ src w n t => if (encodeCheck s src w n t).isNone then w else 0
  | .decode _ src => if (decodeCheck s src).isNone then s.tagN src else 0
  | .add d a b => if (addCheck s d a b).isNone then s.tagW a else 0
  | .nop | .wval _ _ _ | .rval _ _ | .wplane _ _ _ | .rplane _ _ | .lshape _ _ _ | .rtag _
  | .rcarry _ | .rstat | .clrstat | .rdcfg => 0

/-- The work steps of a command word and its data word in a state: none for an ILLEGAL word. -/
def commandSteps (c : Command) (s : State) : Nat :=
  match decodeCommand c.word c.data with
  | .error _ => 0
  | .ok i => workSteps i s

/-- The check cycle: every check of R122; a command with no further step completes in it (R151). -/
def checkEdge (c : Command) (s : State) : StepResult :=
  if commandSteps c s = 0 then executeCommand c s
  else .next { s with phase := .run 0 0 }

/-- After step `k` of `total`: the next step with the running carry, or the last step's completion. -/
def advance (k total : Nat) (running : PlaneWord) (s done : State) : State :=
  if k + 1 < total then { s with phase := .run (k + 1) running } else done

/-- The last step of ENCODE and ADD: planes at and above w become 0, tag and carry are written (R151). -/
def finishLane (d : LaneBuf) (w n : Nat) (c : PlaneWord) (s : State) : State :=
  (s.setLane d (laneImage (s.plane d) w n c)).respond 0

/-- The last step of DECODE: entries at and above n become 0 (R151). -/
def finishValues (d : ValueBuf) (n : Nat) (s : State) : State :=
  (s.setValues d (valueImage (s.entry d) n)).respond 0

/-- Step `k` of a command in BUSY: one destination plane (ENCODE, ADD) or value entry (DECODE) is written;
ADD's running carry is held between steps (R83, R151). A command without steps completes (DESIGN
CHOICE, log entry 12). -/
def workEdge (i : Instr) (k : Nat) (running : PlaneWord) (s : State) : StepResult :=
  match i with
  | .encode d src w n _ =>
    let t := s.setPlane d k (toLane (s.entry src) n k)
    .next (advance k w running t (finishLane d w n 0 t))
  | .add d a b =>
    let m := laneMask (s.tagN a)
    let x := s.plane a k &&& m
    let y := s.plane b k &&& m
    let t := s.setPlane d k (fullAdderSum x y running)
    let next := fullAdderCarry x y running
    .next (advance k (s.tagW a) next t (finishLane d (s.tagW a) (s.tagN a) next t))
  | .decode d src =>
    let t := s.setEntry d k (toValue (s.plane src) (s.tagW src) k)
    .next (advance k (s.tagN src) running t (finishValues d (s.tagN src) t))
  | .nop | .wval _ _ _ | .rval _ _ | .wplane _ _ _ | .rplane _ _ | .lshape _ _ _ | .rtag _
  | .rcarry _ | .rstat | .clrstat | .rdcfg => exec i s

/-- One edge in `run`. -/
def runEdge (c : Command) (k : Nat) (running : PlaneWord) (s : State) : StepResult :=
  match decodeCommand c.word c.data with
  | .error _ => .next (s.raise .illegal)
  | .ok i => workEdge i k running s

/-! ### One rising edge -/

/-- Duty (a) of R146: an offer that was not accepted at the last edge stands unchanged at this one
(DEDUCED, log entry 3). -/
def State.offerKept (s : State) (p : Pins) : Bool :=
  match s.held with
  | none => true
  | some c => p.offer = some c

/-- Records the offer of an edge that did not accept it. -/
def State.holdOffer (s : State) (p : Pins) : State := { s with held := p.offer }

/-- One edge of the sequencer with `rst` low (R146, R151; how edges are counted is DEDUCED, log entry 4).
BUSY without a latched command, which no run reaches, returns to IDLE (DESIGN CHOICE, log entry 12). -/
def sequencerEdge (p : Pins) (s : State) : StepResult :=
  match s.phase, s.latched with
  | .idle, _ =>
    match p.offer with
    | some c => .next (s.accept c)
    | none => .next (s.holdOffer p)
  | .check, some c => andThen (checkEdge c s) fun t => .next (t.holdOffer p)
  | .run k running, some c => andThen (runEdge c k running s) fun t => .next (t.holdOffer p)
  | .check, none => .next ({ s with phase := .idle }.holdOffer p)
  | .run _ _, none => .next ({ s with phase := .idle }.holdOffer p)
  | .resp _, _ =>
    if p.rspReady then andThen s.takeResponse fun t => .next (t.holdOffer p)
    else .next (s.holdOffer p)

/-- One rising edge of `clk` with the pins as sampled: a broken offer is refused (R147), `rst` resets
(R141, R142), and otherwise the sequencer moves (R146). -/
def clockEdge (p : Pins) (s : State) : StepResult :=
  if s.offerKept p then
    if p.rst then .next (s.resetBlock.holdOffer p) else sequencerEdge p s
  else .refused .offerNotHeld

/-- A run of edges, one per element of the list, up to the first fault or refusal. -/
def clockRun : List Pins → State → StepResult
  | [], s => .next s
  | p :: ps, s => andThen (clockEdge p s) (clockRun ps)

end Sys2Proof.Machine
end

