-- ==== Sys2Proof/Machine/Step.lean ====
section
/-! DEFINITION. One step of the machine: a whole command from IDLE to IDLE, as 10_state.md R32 allows
(DESIGN CHOICE, log entry 1). The edge-by-edge machine is Machine/Clock.lean. -/

namespace Sys2Proof.Machine

/-- A command from its acceptance to its response being taken, as one unit (R32, R44). -/
def transact (c : Command) (s : State) : StepResult :=
  andThen (executeCommand c (s.accept c)) State.takeResponse

/-- The pins of a host that keeps its offer and is ready for a response, with `rst` as given. -/
def State.hostPins (s : State) (rst : Bool) : Pins :=
  { Pins.offering s.held true with rst := rst }

/-- One step. The host's next action is the head of `inbox`: `reset` is one edge with `rst` high, in any
phase; a command offered in IDLE is run to the end, its response taken; with nothing to offer the block
waits in IDLE (R131). A block found in BUSY or RESP moves by one edge. -/
def step (s : State) : Host.Outcome State Fault Refusal :=
  match s.inbox, s.phase with
  | .reset :: rest, _ => clockEdge (s.hostPins true) { s with inbox := rest }
  | .command c :: rest, .idle =>
    if s.offerKept (Pins.offering (some c) true) then transact c { s with inbox := rest }
    else .refused .offerNotHeld
  | [], .idle => clockEdge (Pins.offering none true) s
  | _, _ => clockEdge (s.hostPins false) s

/-- The state in which the host's next action is to offer the command whose bits are `w` (bits 31:0 the
command word, bits 63:32 the data word) to a block in IDLE, so that the very next step runs it. The
commands the host had in line come after it. -/
def State.withFetchWord (s : State) (nbits w : Nat) : State :=
  { s with
    phase := .idle
    latched := none
    held := none
    inbox := .command (commandOfBits nbits w) :: s.inbox }

end Sys2Proof.Machine
end

