-- ==== Sys2Proof/Machine/Asm.lean ====
section
/-! DEFINITION. The assembler syntax (30_encoding.md R62), disassembly (R64) and the expansion of the
pseudo-instructions (R63). A line of text is a list of characters. What R62 to R64
leave open about blanks, letter case, number printing and operand ranges is a DESIGN CHOICE (log entry
10). -/

namespace Sys2Proof.Machine

/-! ### Pseudo-instructions (R63) -/

/-- The values of VLOAD with their entry numbers, counting from `k`. -/
def vloadFrom (d : ValueBuf) : Nat → List Word → List Instr
  | _, [] => []
  | k, x :: xs => .wval d k x :: vloadFrom d (k + 1) xs

/-- The commands a pseudo-instruction stands for, in order (R63). It is not atomic: each command returns
its own response. -/
def expandPseudo : Pseudo → List Instr
  | .vload d xs => vloadFrom d 0 xs
  | .vread s n => (List.range n).map fun i => .rval s i
  | .lzero d w n => .lshape d w n :: (List.range w).map fun p => .wplane d p 0
  | .addv d a b w n =>
    [.encode 0 a w n false, .encode 1 b w n false, .add 2 0 1, .decode d 2]

/-! ### Mnemonics -/

/-- The spellings a line can begin with (R62), with the `.word` of R64. -/
inductive Mnemonic where
  | op (o : Opcode)
  | encodeT
  | rawWord
  deriving DecidableEq, Repr

/-- How a mnemonic is spelled (R62, R64). -/
def Mnemonic.spelling : Mnemonic → List Char
  | .op .nop => ['N', 'O', 'P']
  | .op .wval => ['W', 'V', 'A', 'L']
  | .op .rval => ['R', 'V', 'A', 'L']
  | .op .wplane => ['W', 'P', 'L', 'A', 'N', 'E']
  | .op .rplane => ['R', 'P', 'L', 'A', 'N', 'E']
  | .op .lshape => ['L', 'S', 'H', 'A', 'P', 'E']
  | .op .rtag => ['R', 'T', 'A', 'G']
  | .op .encode => ['E', 'N', 'C', 'O', 'D', 'E']
  | .op .decode => ['D', 'E', 'C', 'O', 'D', 'E']
  | .op .add => ['A', 'D', 'D']
  | .op .rcarry => ['R', 'C', 'A', 'R', 'R', 'Y']
  | .op .rstat => ['R', 'S', 'T', 'A', 'T']
  | .op .clrstat => ['C', 'L', 'R', 'S', 'T', 'A', 'T']
  | .op .rdcfg => ['R', 'D', 'C', 'F', 'G']
  | .encodeT => ['E', 'N', 'C', 'O', 'D', 'E', '.', 'T']
  | .rawWord => ['.', 'w', 'o', 'r', 'd']

/-- Every mnemonic. -/
def allMnemonics : List Mnemonic :=
  [.op .nop, .op .wval, .op .rval, .op .wplane, .op .rplane, .op .lshape, .op .rtag, .op .encode,
   .op .decode, .op .add, .op .rcarry, .op .rstat, .op .clrstat, .op .rdcfg, .encodeT, .rawWord]

/-- The mnemonic a spelling names. -/
def readMnemonic (cs : List Char) : Option Mnemonic :=
  allMnemonics.find? fun m => m.spelling == cs

/-! ### Numbers -/

/-- The character of a digit below 16; digits above 9 are written in capitals. -/
def digitChar (d : Nat) : Char := Char.ofNat (if d < 10 then 48 + d else 55 + d)

/-- A number in decimal, with at most `fuel` digits. -/
def decimal : Nat → Nat → List Char
  | 0, _ => []
  | fuel + 1, n => if n < 10 then [digitChar n] else decimal fuel (n / 10) ++ [digitChar (n % 10)]

/-- The low `k` hexadecimal digits of a number. -/
def hexDigits : Nat → Nat → List Char
  | 0, _ => []
  | k + 1, n => hexDigits k (n / 16) ++ [digitChar (n % 16)]

/-- The value of a digit character, below `base`. -/
def digitValue (base : Nat) (c : Char) : Option Nat :=
  let k := c.toNat
  let v := if 48 ≤ k ∧ k ≤ 57 then some (k - 48)
    else if 65 ≤ k ∧ k ≤ 70 then some (k - 55)
    else if 97 ≤ k ∧ k ≤ 102 then some (k - 87)
    else none
  v.filter fun d => d < base

/-- Reads digits from the left onto an accumulator. -/
def readDigits (base : Nat) : List Char → Nat → Option Nat
  | [], acc => some acc
  | c :: cs, acc => (digitValue base c).bind fun d => readDigits base cs (acc * base + d)

/-- A number, decimal or `0x` hexadecimal (R62). -/
def readNumber : List Char → Option Nat
  | '0' :: 'x' :: c :: cs => readDigits 16 (c :: cs) 0
  | [] => none
  | cs => readDigits 10 cs 0

/-- A number that fits a 6-bit field; the assembler rejects the others (R62). -/
def readField6 (cs : List Char) : Option Nat := (readNumber cs).filter fun k => fits6 k

/-- A data word `#data` (R62). -/
def readData : List Char → Option Word
  | '#' :: cs => ((readNumber cs).filter fun k => k < 2 ^ 32).map (BitVec.ofNat 32)
  | _ => none

/-- A buffer operand: the file's letter and a digit 0 to 3 (R62). -/
def readBuffer (file : Char) : List Char → Option (Fin 4)
  | [f, d] =>
    if f = file then (digitValue 4 d).bind fun k => if h : k < 4 then some ⟨k, h⟩ else none else none
  | _ => none

/-- A value buffer V0 .. V3. -/
def readV : List Char → Option ValueBuf := readBuffer 'V'

/-- A lane buffer L0 .. L3. -/
def readL : List Char → Option LaneBuf := readBuffer 'L'

/-! ### The assembler (R62) -/

/-- Blank characters. -/
def isBlank (c : Char) : Bool := c = ' ' || c = '\t' || c = '\r' || c = '\n'

/-- A text without blanks at its two ends. -/
def trim (cs : List Char) : List Char :=
  ((cs.dropWhile isBlank).reverse.dropWhile isBlank).reverse

/-- The parts of a text between commas. -/
def splitCommas : List Char → List (List Char)
  | [] => [[]]
  | ',' :: cs => [] :: splitCommas cs
  | c :: cs =>
    match splitCommas cs with
    | [] => [[c]]
    | part :: parts => (c :: part) :: parts

/-- The operands of a line: none for an empty text, else its parts between commas. -/
def operands (cs : List Char) : List (List Char) :=
  match trim cs with
  | [] => []
  | text => (splitCommas text).map trim

/-- The command a mnemonic spells with its operands (R62). A command without `#data` has data word 0. -/
def assembleOperands (m : Mnemonic) (ops : List (List Char)) : Option Command :=
  match m, ops with
  | .op .nop, [] => some (encodeInstr .nop)
  | .op .wval, [d, i, x] =>
    (readV d).bind fun d => (readField6 i).bind fun i => (readData x).map fun x =>
      encodeInstr (.wval d i x)
  | .op .wval, [d, i] =>
    (readV d).bind fun d => (readField6 i).map fun i => encodeInstr (.wval d i 0)
  | .op .rval, [s, i] =>
    (readV s).bind fun s => (readField6 i).map fun i => encodeInstr (.rval s i)
  | .op .wplane, [d, p, x] =>
    (readL d).bind fun d => (readField6 p).bind fun p => (readData x).map fun x =>
      encodeInstr (.wplane d p x)
  | .op .wplane, [d, p] =>
    (readL d).bind fun d => (readField6 p).map fun p => encodeInstr (.wplane d p 0)
  | .op .rplane, [s, p] =>
    (readL s).bind fun s => (readField6 p).map fun p => encodeInstr (.rplane s p)
  | .op .lshape, [d, w, n] =>
    (readL d).bind fun d => (readField6 w).bind fun w => (readField6 n).map fun n =>
      encodeInstr (.lshape d w n)
  | .op .rtag, [s] => (readL s).map fun s => encodeInstr (.rtag s)
  | .op .encode, [d, s, w, n] =>
    (readL d).bind fun d => (readV s).bind fun s => (readField6 w).bind fun w =>
      (readField6 n).map fun n => encodeInstr (.encode d s w n false)
  | .encodeT, [d, s, w, n] =>
    (readL d).bind fun d => (readV s).bind fun s => (readField6 w).bind fun w =>
      (readField6 n).map fun n => encodeInstr (.encode d s w n true)
  | .op .decode, [d, s] =>
    (readV d).bind fun d => (readL s).map fun s => encodeInstr (.decode d s)
  | .op .add, [d, a, b] =>
    (readL d).bind fun d => (readL a).bind fun a => (readL b).map fun b =>
      encodeInstr (.add d a b)
  | .op .rcarry, [s] => (readL s).map fun s => encodeInstr (.rcarry s)
  | .op .rstat, [] => some (encodeInstr .rstat)
  | .op .clrstat, [] => some (encodeInstr .clrstat)
  | .op .rdcfg, [] => some (encodeInstr .rdcfg)
  | .rawWord, [x] =>
    ((readNumber x).filter fun k => k < 2 ^ 32).map fun k => ⟨BitVec.ofNat 32 k, 0⟩
  | _, _ => none

/-- What one line of assembler text is. -/
inductive Line where
  /-- Nothing but blanks and a comment. -/
  | blank
  /-- One command. -/
  | command (c : Command)
  /-- Not a line of the syntax. -/
  | rejected
  deriving DecidableEq, Repr

/-- One line of assembler text; a `;` starts a comment (R62). -/
def assembleLine (text : List Char) : Line :=
  match trim (text.takeWhile fun c => c ≠ ';') with
  | [] => .blank
  | cs =>
    match readMnemonic (cs.takeWhile fun c => !isBlank c) with
    | none => .rejected
    | some m =>
      match assembleOperands m (operands (cs.dropWhile fun c => !isBlank c)) with
      | none => .rejected
      | some c => .command c

/-! ### Disassembly (R64) -/

/-- The operand texts of a line after its mnemonic: a blank, then the operands with `, ` between them. -/
def joinOperands : List (List Char) → List Char
  | [] => []
  | [x] => ' ' :: x
  | x :: y :: rest => ' ' :: x ++ ',' :: joinOperands (y :: rest)

/-- A value buffer's name. -/
def spellV (v : ValueBuf) : List Char := ['V', digitChar v.val]

/-- A lane buffer's name. -/
def spellL (l : LaneBuf) : List Char := ['L', digitChar l.val]

/-- A 6-bit number in decimal. -/
def spellField (k : Nat) : List Char := decimal 2 k

/-- A data word in decimal. -/
def spellData (x : Word) : List Char := '#' :: decimal 10 x.toNat

/-- The spelling of a command, the inverse of R62 (R64). -/
def spellInstr : Instr → Mnemonic × List (List Char)
  | .nop => (.op .nop, [])
  | .wval d idx x => (.op .wval, [spellV d, spellField idx, spellData x])
  | .rval s idx => (.op .rval, [spellV s, spellField idx])
  | .wplane d p x => (.op .wplane, [spellL d, spellField p, spellData x])
  | .rplane s p => (.op .rplane, [spellL s, spellField p])
  | .lshape d w n => (.op .lshape, [spellL d, spellField w, spellField n])
  | .rtag s => (.op .rtag, [spellL s])
  | .encode d s w n t =>
    (if t then .encodeT else .op .encode, [spellL d, spellV s, spellField w, spellField n])
  | .decode d s => (.op .decode, [spellV d, spellL s])
  | .add d a b => (.op .add, [spellL d, spellL a, spellL b])
  | .rcarry s => (.op .rcarry, [spellL s])
  | .rstat => (.op .rstat, [])
  | .clrstat => (.op .clrstat, [])
  | .rdcfg => (.op .rdcfg, [])

/-- The line that prints a command; a word that spells no command prints as `.word 0x` and eight
hexadecimal digits (R64). -/
def disassemble (c : Command) : List Char :=
  let line : Mnemonic × List (List Char) :=
    match decodeCommand c.word c.data with
    | .ok i => spellInstr i
    | .error _ => (.rawWord, ['0' :: 'x' :: hexDigits 8 c.word.toNat])
  line.1.spelling ++ joinOperands line.2

end Sys2Proof.Machine
end

