-- ==== Sys2Proof/Safety.lean ====
section
/-! DEFINITION. What a legal state of the block is, and the words the statements are written in. -/

namespace Sys2Proof.Machine

open Sys2Proof.Config (C WMAX)

/-! ### Legal states -/

/-- A legal tag (R25): with VALID = 1, W is in WIDTH_SET and N is 0 .. C; VALID = 0 only as reset left
it. -/
def Tag.Legal (params : Params) (t : Tag) : Prop :=
  (t.valid = true → t.w.toNat ∈ params.widthSet ∧ t.n.toNat ≤ C) ∧
    (t.valid = false → t = Tag.unshaped)

/-- A lane buffer whose tag is legal and whose carry register has no bit at or above the lane count of
the command that wrote it, which is the tag's N (R25, R26). -/
def LaneBuffer.Legal (params : Params) (b : LaneBuffer) : Prop :=
  Tag.Legal params b.tag ∧ b.carry &&& laneMask b.tag.n.toNat = b.carry

/-- ERRACC's bit 0 and bits 15:9 are 0 (R28). -/
def ErrAccLegal (acc : BitVec 16) : Prop :=
  ∀ k, k < 16 → (k = 0 ∨ 9 ≤ k) → acc.getLsbD k = false

/-- A response the block can give: a code 0 to 8, and data 0 with every error (R59, R120). -/
def Response.Legal (r : Response) : Prop := r.err.toNat ≤ 8 ∧ (r.err ≠ 0 → r.data = 0)

/-- The block is in IDLE with no command in flight, and the host holds no offer. -/
def State.Quiet (s : State) : Prop := s.phase = .idle ∧ s.latched = none ∧ s.held = none

/-- The invariant of the machine between steps. -/
structure State.Legal (s : State) : Prop where
  params : s.params.wellFormed = true
  lanes : ∀ l : LaneBuf, LaneBuffer.Legal s.params s.lane[l]
  erracc : ErrAccLegal s.erracc
  quiet : s.Quiet
  responses : ∀ r ∈ s.outbox, Response.Legal r

/-- The state of R140: every piece of the block's state at its reset value. -/
structure State.Cleared (s : State) : Prop where
  entries : ∀ (v : ValueBuf) (i : Nat), i < C → s.entry v i = 0
  planes : ∀ (l : LaneBuf) (p : Nat), p < WMAX → s.plane l p = 0
  tags : ∀ l : LaneBuf, s.tag l = ⟨false, 0, 0⟩
  carries : ∀ l : LaneBuf, s.carry l = 0
  erracc : s.erracc = 0
  phase : s.phase = .idle
  latched : s.latched = none

/-! ### What a command did -/

/-- `t` is `s` after a command that completed with code `e` and response data `x`: the response is
pending, and the parameters, the latch and the host's side are untouched. What became of the buffers
and of ERRACC is not said here. -/
structure Completes (s t : State) (e : ErrCode) (x : Word) : Prop where
  phase : t.phase = .resp ⟨e.code, x⟩
  params : t.params = s.params
  latched : t.latched = s.latched
  held : t.held = s.held
  inbox : t.inbox = s.inbox
  outbox : t.outbox = s.outbox

/-- `t` is `s` after a command that raised `e`: the response is (e, 0), ERRACC has gained the bit of `e`
and no other, and every buffer, tag and carry register is as before (R121). -/
structure Raises (s t : State) (e : ErrCode) : Prop where
  completes : Completes s t e 0
  value : t.value = s.value
  lane : t.lane = s.lane
  erracc : ∀ k, k < 16 → t.erracc.getLsbD k = (s.erracc.getLsbD k || k == e.code.toNat)

/-- Every entry of every value buffer other than `v` is as before. -/
def OtherValuesKept (s t : State) (v : ValueBuf) : Prop :=
  ∀ v', v' ≠ v → t.value[v'] = s.value[v']

/-- Every lane buffer other than `l` keeps its planes, its tag and its carry register. -/
def OtherLanesKept (s t : State) (l : LaneBuf) : Prop :=
  ∀ l', l' ≠ l → t.lane[l'] = s.lane[l']

/-- The value buffer a command writes when it completes without error (R43). -/
def valueDest : Instr → Option ValueBuf
  | .wval d _ _ => some d
  | .decode d _ => some d
  | .nop | .rval _ _ | .wplane _ _ _ | .rplane _ _ | .lshape _ _ _ | .rtag _ | .encode _ _ _ _ _
  | .add _ _ _ | .rcarry _ | .rstat | .clrstat | .rdcfg => none

/-- The lane buffer a command writes when it completes without error (R43). -/
def laneDest : Instr → Option LaneBuf
  | .wplane d _ _ => some d
  | .lshape d _ _ => some d
  | .encode d _ _ _ _ => some d
  | .add d _ _ => some d
  | .nop | .wval _ _ _ | .rval _ _ | .rplane _ _ | .rtag _ | .decode _ _ | .rcarry _ | .rstat
  | .clrstat | .rdcfg => none

/-- Whether the cause of an error code is present for a command in a state, each cause taken by itself
from the table of R120. -/
def ErrorApplies (i : Instr) (s : State) : ErrCode → Prop
  | .capacity =>
    match i with
    | .encode _ _ _ n _ => C < n
    | .lshape _ _ n => C < n
    | _ => False
  | .width =>
    match i with
    | .encode _ _ w _ _ => w ∉ s.params.widthSet
    | .lshape _ w _ => w ∉ s.params.widthSet
    | _ => False
  | .range =>
    match i with
    | .encode _ src w n t => t = false ∧ ∃ k, k < n ∧ 2 ^ w ≤ (s.entry src k).toNat
    | _ => False
  | .shape =>
    match i with
    | .add _ a b => (s.tag a).w ≠ (s.tag b).w ∨ (s.tag a).n ≠ (s.tag b).n
    | _ => False
  | .uninit =>
    match i with
    | .decode _ src => (s.tag src).valid = false
    | .add _ a b => (s.tag a).valid = false ∨ (s.tag b).valid = false
    | _ => False
  | .index =>
    match i with
    | .wval _ idx _ => C ≤ idx
    | .rval _ idx => C ≤ idx
    | .wplane _ p _ => WMAX ≤ p
    | .rplane _ p => WMAX ≤ p
    | _ => False
  | .aliasing =>
    match i with
    | .add d a b => d = a ∨ d = b
    | _ => False
  | .illegal => False
  | .ok => False

/-- The order in which a command reports its errors (R122), after decoding. -/
def errorOrder : List ErrCode := [.capacity, .width, .index, .uninit, .aliasing, .shape, .range]

/-- `e` is the first of the errors `es` that applies, or `ok` if none does. -/
def FirstError (applies : ErrCode → Prop) : List ErrCode → ErrCode → Prop
  | [], e => e = .ok
  | x :: xs, e => (applies x ∧ e = x) ∨ (¬applies x ∧ FirstError applies xs e)

/-- Edges that take a command from its acceptance to the pending response: one edge offers it, and the
latency of R150 follows with nothing offered. -/
def commandEdges (c : Command) (latency : Nat) (rspReady : Bool) : List Pins :=
  Pins.offering (some c) rspReady :: List.replicate latency (Pins.offering none rspReady)

end Sys2Proof.Machine
end

