-- ==== Sys2Proof/Certificates/Slice0/Obligations.lean ====
section
/-! DEFINITION. The statements for the provers. Each docstring names the rules of spec/ it rests on. -/

open Sys2Proof Sys2Proof.Machine
open Sys2Proof.Config (C WMAX NV NL)

/-! ### Reset and the command port -/

/-- R140: the reset state, and what reset makes of any state. CFG is unaffected by reset. -/
def Obligations.ResetClearsEveryRegister : Prop :=
  State.reset.Cleared ∧ State.reset.cfg = 0x5811F820 ∧
    ∀ s : State, s.resetBlock.Cleared ∧ s.resetBlock.cfg = s.cfg

/-- The reset state satisfies the invariant of the machine. Its clauses on WIDTH_SET, tags, carry registers,
ERRACC, phase and latch are R8, R25, R26, R28 and R140. Its clauses on the host's side are the model's
choice: no offer is held at reset (log entry 3, DESIGN CHOICE) and no response has been taken, so the
outbox is empty (log entry 2, DESIGN CHOICE). The parameters at reset are the default (log entry 5). -/
def Obligations.ResetStateIsLegal : Prop := State.reset.Legal

/-- R141, R142: an edge with `rst` high, in any phase, gives the state of R140; a command in flight gives
no response and an offered response is withdrawn. While `rst` is high both outputs are 0; once it is low
the block is ready. That the cleared values stand after every edge with `rst` high is the model's reading
(log entry 6, DEDUCED); that duty (a) is watched there too is log entry 3 (DEDUCED). -/
def Obligations.ResetEdgeAbandonsCommand : Prop :=
  ∀ (s : State) (p : Pins), s.offerKept p = true → p.rst = true →
    s.cmdReady true = false ∧ s.rspPort true = none ∧
      ∃ t, clockEdge p s = .next t ∧ t.Cleared ∧ t.cfg = s.cfg ∧ t.outbox = s.outbox ∧
        t.cmdReady false = true ∧ t.rspPort false = none

/-- R146, R147, U8: an offer that an edge did not accept (`cmd_valid = 1`, `cmd_ready = 0`) and that the host
changes or drops at the next edge is refused, whatever the phase. That this covers edges with `rst` high,
where R141 makes `cmd_ready` 0, is the model's reading of R146 (log entry 3, DEDUCED). -/
def Obligations.BrokenOfferIsRefused : Prop :=
  ∀ (s t : State) (p q : Pins) (c : Command), p.offer = some c → s.cmdReady p.rst = false →
    clockEdge p s = .next t → q.offer ≠ some c → clockEdge q t = .refused .offerNotHeld

/-- R146: a command is accepted at an edge where it is offered to a block in IDLE; both its words are
latched and the block is BUSY. The premise that the host keeps an earlier offer is stated with the model's
own `held` (log entry 3). -/
def Obligations.OfferInIdleIsLatched : Prop :=
  ∀ (s : State) (p : Pins) (c : Command), s.offerKept p = true → p.rst = false →
    s.phase = .idle → p.offer = some c →
    s.cmdReady false = true ∧
      ∃ t, clockEdge p s = .next t ∧ t.latched = some c ∧ t.phase = .check ∧
        t.cmdReady false = false ∧ t.rspPort false = none ∧ t.value = s.value ∧ t.lane = s.lane ∧
        t.erracc = s.erracc ∧ t.outbox = s.outbox

/-- R146, U9: a response is held unchanged while the host does not take it, and taken at the first edge
at which it is ready; the block is then in IDLE. The outbox of taken responses and the remembered offer
are the model's (log entries 2 and 3). -/
def Obligations.ResponseIsHeldUntilTaken : Prop :=
  ∀ (s : State) (p : Pins) (r : Response), s.offerKept p = true → p.rst = false →
    s.phase = .resp r → Response.Legal r →
    ∃ t, clockEdge p s = .next t ∧ t.value = s.value ∧ t.lane = s.lane ∧ t.erracc = s.erracc ∧
      (p.rspReady = false → t.rspPort false = some r ∧ t.phase = s.phase ∧
        t.latched = s.latched ∧ t.outbox = s.outbox) ∧
      (p.rspReady = true → t.cmdReady false = true ∧ t.rspPort false = none ∧
        t.latched = none ∧ t.outbox = s.outbox ++ [r])

/-! ### Encoding -/

/-- A few words written out from R50 and R51 (the examples of R62, R70, R71, R82, R90 to R96). -/
def Obligations.SampleWordsDecode : Prop :=
  decodeCommand 0x74081000 0 = .ok (.encode 1 0 8 4 false) ∧
  decodeCommand 0x74081200 0 = .ok (.encode 1 0 8 4 true) ∧
  decodeCommand 0x98400000 0 = .ok (.add 2 0 1) ∧
  decodeCommand 0x8E000000 0 = .ok (.decode 3 2) ∧
  decodeCommand 0x18000005 7 = .ok (.wval 2 5 7) ∧
  decodeCommand 0x3C00001F 0x80000001 = .ok (.wplane 3 31 0x80000001) ∧
  decodeCommand 0x54108000 0 = .ok (.lshape 1 16 32) ∧
  decodeCommand 0xD0000000 0 = .ok .rdcfg ∧
  decodeCommand 0xE0000000 0 = .error .reservedOpcode ∧
  decodeCommand 0x10000040 0 = .error .unusedFieldSet

/-- R53, R62: decoding the words of a well-formed command gives it back, for every command and every
value of every operand. -/
def Obligations.DecodingEncodedCommandGivesItBack : Prop :=
  ∀ i : Instr, i.wellFormed = true →
    decodeCommand (encodeInstr i).word (encodeInstr i).data = .ok i

/-- R51 to R53: a word that decodes is the encoding of the command it decodes to, which is well formed:
no bit of the word is dropped and no two commands share a word. -/
def Obligations.EncodingDecodedWordGivesItBack : Prop :=
  ∀ (cmd data : Word) (i : Instr), decodeCommand cmd data = .ok i →
    i.wellFormed = true ∧ encodeWord i = cmd

/-- R51, R52: `(cmd AND mask) = match` selects an opcode's row, for every row and every word. -/
def Obligations.MatchAndMaskSelectOpcode : Prop :=
  ∀ (cmd data : Word) (op : Opcode),
    cmd &&& op.maskWord = op.matchWord ↔
      ∃ i, decodeCommand cmd data = .ok i ∧ i.opcode = op

/-- R52, R60, R120: a word that no row's match and mask select raises ILLEGAL, whatever the data word,
and changes nothing else. -/
def Obligations.UnselectedWordRaisesIllegal : Prop :=
  ∀ (s : State) (c : Command), (∀ op : Opcode, c.word &&& op.maskWord ≠ op.matchWord) →
    ∃ t, executeCommand c s = .next t ∧ Raises s t .illegal

/-- R59: the data word is stored by WVAL and WPLANE and ignored by every other command; response data
is 0 for a command that is no read and for every error. -/
def Obligations.DataWordReachesOnlyWrites : Prop :=
  (∀ (s : State) (cmd x y : Word), fieldOP cmd ≠ 1 → fieldOP cmd ≠ 3 →
    executeCommand ⟨cmd, x⟩ s = executeCommand ⟨cmd, y⟩ s) ∧
  (∀ (s t : State) (cmd x : Word) (r : Response), executeCommand ⟨cmd, x⟩ s = .next t →
    t.phase = .resp r → fieldOP cmd = 1 → r.err = 0 → t.entry (fieldD cmd) (fieldIDX cmd) = x) ∧
  (∀ (s t : State) (cmd x : Word) (r : Response), executeCommand ⟨cmd, x⟩ s = .next t →
    t.phase = .resp r → fieldOP cmd = 3 → r.err = 0 → t.plane (fieldD cmd) (fieldIDX cmd) = x) ∧
  (∀ (s t : State) (c : Command) (r : Response), executeCommand c s = .next t → t.phase = .resp r →
    r.err ≠ 0 ∨ fieldOP c.word ∈ [0x0, 0x1, 0x3, 0x5, 0x7, 0x8, 0x9, 0xC] → r.data = 0)

/-! ### One step -/

/-- R32, R44: a step in IDLE with a command offered runs the command it decodes to: it is accepted, `exec`
runs it, and its response is taken. The size of a step, the inbox, the host that takes the response at
once and the remembered offer are the model's (log entries 1, 2 and 3). -/
def Obligations.StepRunsDecodedCommand : Prop :=
  ∀ (s : State) (c : Command) (rest : List HostInput) (i : Instr), s.phase = .idle →
    s.held = none → s.inbox = .command c :: rest → decodeCommand c.word c.data = .ok i →
    step s = andThen (exec i ({ s with inbox := rest }.accept c)) State.takeResponse

/-- R131: with nothing offered the block waits in IDLE and its state survives (log entries 1 and 3 for the
step, the inbox and the remembered offer, which are the model's). -/
def Obligations.IdleBlockWaits : Prop :=
  ∀ s : State, s.phase = .idle → s.held = none → s.inbox = [] → step s = .next s

/-- R141, R142 at the step level: the host asserts reset in any phase. The inbox and the outbox are the
model's (log entries 1 and 2), and one edge with `rst` high clearing the block is its reading (log entry
6). -/
def Obligations.ResetStepClears : Prop :=
  ∀ (s : State) (rest : List HostInput), s.inbox = .reset :: rest →
    ∃ t, step s = .next t ∧ t.Cleared ∧ t.cfg = s.cfg ∧ t.inbox = rest ∧ t.outbox = s.outbox

/-- R121: what every command does to ERRACC, and what an error does to everything else; the block is
back in IDLE after either, and the response is the command's own. That a step is a whole command, which
R32 allows, with an inbox and an outbox and a host that takes every response at once, is the model's
choice (log entries 1 and 2); `Quiet` has no offer held (log entry 3). -/
def Obligations.ErrorAccounting : Prop :=
  ∀ (s : State) (c : Command) (rest : List HostInput), s.Quiet → s.inbox = .command c :: rest →
    ∃ t r, step s = .next t ∧ t.Quiet ∧ t.inbox = rest ∧ t.outbox = s.outbox ++ [r] ∧
      (r.err ≠ 0 → r.data = 0 ∧ t.value = s.value ∧ t.lane = s.lane ∧
        ∀ k, k < 16 → t.erracc.getLsbD k = (s.erracc.getLsbD k || k == r.err.toNat)) ∧
      (r.err = 0 → c.word ≠ 0xC0000000 → t.erracc = s.erracc) ∧
      (c.word = 0xC0000000 → r.err = 0 ∧ t.erracc = 0)

/-- R49, R120: every command completes with one response, its code one of 0 to 8; the parameters and the
host's side are untouched by the command itself. -/
def Obligations.EveryCommandResponds : Prop :=
  ∀ (i : Instr) (s : State), ∃ t e x, exec i s = .next t ∧ Completes s t e x ∧
    Response.Legal ⟨e.code, x⟩

/-- R122: the reported code is the first that applies, in the order ILLEGAL, CAPACITY, WIDTH, INDEX,
UNINIT, ALIAS, SHAPE, RANGE, and OK if none applies; which causes a command can have is R120's table. -/
def Obligations.FirstApplicableErrorIsReported : Prop :=
  ∀ (s : State) (c : Command), ∃ t e x, executeCommand c s = .next t ∧ t.phase = .resp ⟨e.code, x⟩ ∧
    (∀ d, decodeCommand c.word c.data = .error d → e = .illegal) ∧
    (∀ i, decodeCommand c.word c.data = .ok i → FirstError (ErrorApplies i s) errorOrder e)

/-- R43, R45: a command writes no buffer but the one it names as its destination. -/
def Obligations.OnlyDestinationIsWritten : Prop :=
  ∀ (i : Instr) (s t : State), exec i s = .next t →
    (∀ v, valueDest i ≠ some v → t.value[v] = s.value[v]) ∧
    (∀ l, laneDest i ≠ some l → t.lane[l] = s.lane[l])

/-- R25, R26: only LSHAPE, ENCODE and ADD with destination `l` write the tag or the carry register of
lane buffer `l`, and no command makes a valid tag invalid. -/
def Obligations.TagAndCarryWriters : Prop :=
  ∀ (i : Instr) (s t : State) (l : LaneBuf), exec i s = .next t →
    (t.tag l ≠ s.tag l ∨ t.carry l ≠ s.carry l →
      (∃ w n, i = .lshape l w n) ∨ (∃ v w n x, i = .encode l v w n x) ∨ (∃ a b, i = .add l a b)) ∧
    ((s.tag l).valid = true → (t.tag l).valid = true)

/-- R43: every command is idempotent: issued again it leaves the same state and gives the same response. -/
def Obligations.CommandsAreIdempotent : Prop :=
  ∀ (i : Instr) (s t : State), exec i s = .next t → exec i t = .next t

/-- R28: over any run of commands without CLRSTAT, ERRACC gains exactly the bits of the codes in the
responses; a run begun with ERRACC clear (after reset or CLRSTAT) has bit k set exactly when some
response has code k. That each call of `step` is one whole command from the inbox, which R32 allows, and
that the responses stand in the outbox, taken by the host at once, is the model's choice (log entries 1
and 2); `Quiet` has no offer held (log entry 3). -/
def Obligations.ErraccCollectsResponseCodes : Prop :=
  ∀ (cs : List Command) (s : State), s.Quiet → s.inbox = cs.map .command →
    (∀ c ∈ cs, c.word ≠ 0xC0000000) →
    ∃ (t : State) (rs : List Response), Sys2Proof.core.run cs.length s = .next t ∧
      t.outbox = s.outbox ++ rs ∧ rs.length = cs.length ∧
      ∀ k, 1 ≤ k → k < 16 →
        t.erracc.getLsbD k = (s.erracc.getLsbD k || rs.any fun r => r.err.toNat == k)

/-- R25, R26, R28, R120: from every legal state a step answers a next state, and it is legal. That no step
stops, and that the block is in IDLE after each, rests on the size of a step, which R32 allows, and on a
host that keeps its offers and takes every response at once, the model's choice (log entries 1 and 2);
the clauses of `Legal` on the outbox and on the remembered offer are about the model's own fields (log
entries 2 and 3). -/
def Obligations.StepKeepsStateLegal : Prop :=
  ∀ s : State, s.Legal → ∃ t, step s = .next t ∧ t.Legal

/-! ### Buffer access -/

/-- R90: WVAL with an index in range. -/
def Obligations.WvalStoresEntry : Prop :=
  ∀ (s : State) (d : ValueBuf) (idx : Nat) (x : Word), idx < C →
    ∃ t, exec (.wval d idx x) s = .next t ∧ Completes s t .ok 0 ∧ t.entry d idx = x ∧
      (∀ j, j < C → j ≠ idx → t.entry d j = s.entry d j) ∧ OtherValuesKept s t d ∧
      t.lane = s.lane ∧ t.erracc = s.erracc

/-- R92: WPLANE with an index in range: tag and carry register of the buffer are unchanged. -/
def Obligations.WplaneStoresPlane : Prop :=
  ∀ (s : State) (d : LaneBuf) (p : Nat) (x : Word), p < WMAX →
    ∃ t, exec (.wplane d p x) s = .next t ∧ Completes s t .ok 0 ∧ t.plane d p = x ∧
      (∀ j, j < WMAX → j ≠ p → t.plane d j = s.plane d j) ∧ t.tag d = s.tag d ∧
      t.carry d = s.carry d ∧ OtherLanesKept s t d ∧ t.value = s.value ∧ t.erracc = s.erracc

/-- R91, R93, R96, R101: the reads of raw storage and of ERRACC return it and change nothing but the
pending response. -/
def Obligations.ReadsReturnStorageUnchanged : Prop :=
  (∀ (s : State) (v : ValueBuf) (idx : Nat), (h : idx < C) →
    exec (.rval v idx) s = .next { s with phase := .resp ⟨0, (s.value[v])[idx]⟩ }) ∧
  (∀ (s : State) (l : LaneBuf) (p : Nat), (h : p < WMAX) →
    exec (.rplane l p) s = .next { s with phase := .resp ⟨0, (s.lane[l]).planes[p]⟩ }) ∧
  (∀ (s : State) (l : LaneBuf),
    exec (.rcarry l) s = .next { s with phase := .resp ⟨0, (s.lane[l]).carry⟩ }) ∧
  (∀ s : State, ∃ x : Word, exec .rstat s = .next { s with phase := .resp ⟨0, x⟩ } ∧
    ∀ k, k < 32 → x.getLsbD k = (decide (k < 16) && s.erracc.getLsbD k))

/-- R95: RTAG returns VALID in bit 31, W in bits 21:16, N in bits 15:10, 0 elsewhere. -/
def Obligations.RtagReturnsTagWord : Prop :=
  ∀ (s : State) (l : LaneBuf), ∃ x : Word, exec (.rtag l) s = .next { s with phase := .resp ⟨0, x⟩ } ∧
    x.toNat = (s.tag l).valid.toNat * 2 ^ 31 + (s.tag l).w.toNat * 2 ^ 16 +
      (s.tag l).n.toNat * 2 ^ 10

/-- R56, R120: an index at or beyond the range raises INDEX. -/
def Obligations.IndexOutOfRangeRaises : Prop :=
  (∀ (s : State) (d : ValueBuf) (idx : Nat) (x : Word), C ≤ idx →
    ∃ t, exec (.wval d idx x) s = .next t ∧ Raises s t .index) ∧
  (∀ (s : State) (v : ValueBuf) (idx : Nat), C ≤ idx →
    ∃ t, exec (.rval v idx) s = .next t ∧ Raises s t .index) ∧
  (∀ (s : State) (d : LaneBuf) (p : Nat) (x : Word), WMAX ≤ p →
    ∃ t, exec (.wplane d p x) s = .next t ∧ Raises s t .index) ∧
  (∀ (s : State) (l : LaneBuf) (p : Nat), WMAX ≤ p →
    ∃ t, exec (.rplane l p) s = .next t ∧ Raises s t .index)

/-- R94: LSHAPE with a legal shape writes the tag and clears the carry register; the planes stay. -/
def Obligations.LshapeDeclaresShape : Prop :=
  ∀ (s : State) (d : LaneBuf) (w n : Nat), s.params.wellFormed = true → w ∈ s.params.widthSet →
    n ≤ C →
    ∃ t, exec (.lshape d w n) s = .next t ∧ Completes s t .ok 0 ∧ (t.tag d).valid = true ∧
      t.tagW d = w ∧ t.tagN d = n ∧ t.carry d = 0 ∧ (t.lane[d]).planes = (s.lane[d]).planes ∧
      OtherLanesKept s t d ∧ t.value = s.value ∧ t.erracc = s.erracc

/-- R54, R55, R122 and scenario S3: for LSHAPE and ENCODE, N > C raises CAPACITY for every W; otherwise
a W outside WIDTH_SET raises WIDTH. -/
def Obligations.IllegalShapeRaises : Prop :=
  ∀ (s : State) (d : LaneBuf) (v : ValueBuf) (w n : Nat) (x : Bool),
    (C < n → (∃ t, exec (.lshape d w n) s = .next t ∧ Raises s t .capacity) ∧
      ∃ t, exec (.encode d v w n x) s = .next t ∧ Raises s t .capacity) ∧
    (n ≤ C → w ∉ s.params.widthSet →
      (∃ t, exec (.lshape d w n) s = .next t ∧ Raises s t .width) ∧
      ∃ t, exec (.encode d v w n x) s = .next t ∧ Raises s t .width)

/-! ### Control and status -/

/-- R100, R102: NOP changes nothing; CLRSTAT clears ERRACC and changes nothing else. -/
def Obligations.NopAndClrstat : Prop :=
  ∀ s : State, exec .nop s = .next { s with phase := .resp ⟨0, 0⟩ } ∧
    exec .clrstat s = .next { s with erracc := 0, phase := .resp ⟨0, 0⟩ }

/-- R103: RDCFG returns ID 0x58, FULLW, REV 1, NL-1, NV-1, WMAX and C in their fields; FULLW is 1 exactly
when WIDTH_SET is {1, .., 32}. -/
def Obligations.RdcfgReturnsParameters : Prop :=
  ∀ s : State, ∃ (x : Word) (fullw : Bool),
    exec .rdcfg s = .next { s with phase := .resp ⟨0, x⟩ } ∧
    (fullw = true ↔ ∀ w, w ∈ s.params.widthSet ↔ 1 ≤ w ∧ w ≤ 32) ∧
    x.toNat = 0x58 * 2 ^ 24 + fullw.toNat * 2 ^ 20 + 1 * 2 ^ 16 + (NL - 1) * 2 ^ 14 +
      (NV - 1) * 2 ^ 12 + WMAX * 2 ^ 6 + C

/-! ### Transposer -/

/-- R70: ENCODE of values in range, or any values with T = 1: bit `i` of plane `p` is bit `p` of entry
`i` for p < W and i < N, and 0 elsewhere. -/
def Obligations.EncodeTransposesValues : Prop :=
  ∀ (s : State) (d : LaneBuf) (v : ValueBuf) (w n : Nat) (x : Bool),
    s.params.wellFormed = true → w ∈ s.params.widthSet → n ≤ C →
    (x = false → ∀ i, i < n → (s.entry v i).toNat < 2 ^ w) →
    ∃ t, exec (.encode d v w n x) s = .next t ∧ Completes s t .ok 0 ∧
      (∀ p i, p < WMAX → i < C →
        (t.plane d p).getLsbD i = (decide (p < w ∧ i < n) && (s.entry v i).getLsbD p)) ∧
      (t.tag d).valid = true ∧ t.tagW d = w ∧ t.tagN d = n ∧ t.carry d = 0 ∧
      OtherLanesKept s t d ∧ t.value = s.value ∧ t.erracc = s.erracc

/-- R70: with T = 0 an entry below N at or above 2^W raises RANGE. -/
def Obligations.EncodeOutOfRangeRaises : Prop :=
  ∀ (s : State) (d : LaneBuf) (v : ValueBuf) (w n i : Nat), w ∈ s.params.widthSet → n ≤ C →
    i < n → 2 ^ w ≤ (s.entry v i).toNat →
    ∃ t, exec (.encode d v w n false) s = .next t ∧ Raises s t .range

/-- R69: the range predicate; with W = 32 or N = 0 it is false. -/
def Obligations.RangePredicate : Prop :=
  ∀ (vals : Nat → Word) (w n : Nat),
    (outOfRange vals w n = true ↔ ∃ i, i < n ∧ vals i >>> w ≠ 0) ∧
    (outOfRange vals w n = true ↔ ∃ i b, i < n ∧ w ≤ b ∧ (vals i).getLsbD b = true) ∧
    outOfRange vals 32 n = false ∧ outOfRange vals w 0 = false

/-- R71: DECODE of a shaped buffer: bit `b` of entry `i` is bit `i` of plane `b` for i < N and b < W,
and 0 elsewhere. -/
def Obligations.DecodeTransposesPlanes : Prop :=
  ∀ (s : State) (d : ValueBuf) (l : LaneBuf), s.params.wellFormed = true →
    LaneBuffer.Legal s.params s.lane[l] → (s.tag l).valid = true →
    ∃ t, exec (.decode d l) s = .next t ∧ Completes s t .ok 0 ∧
      (∀ i b, i < C → b < 32 →
        (t.entry d i).getLsbD b =
          (decide (i < s.tagN l ∧ b < s.tagW l) && (s.plane l b).getLsbD i)) ∧
      OtherValuesKept s t d ∧ t.lane = s.lane ∧ t.erracc = s.erracc

/-- R71, R120: DECODE of a buffer without a shape raises UNINIT. -/
def Obligations.DecodeUnshapedRaises : Prop :=
  ∀ (s : State) (d : ValueBuf) (l : LaneBuf), (s.tag l).valid = false →
    ∃ t, exec (.decode d l) s = .next t ∧ Raises s t .uninit

/-- R67: the two transpositions are inverse to each other, for every legal W and N. -/
def Obligations.TranspositionsAreInverse : Prop :=
  ∀ (params : Params) (w n : Nat), params.wellFormed = true → w ∈ params.widthSet → n ≤ C →
    (∀ vals : Nat → Word, (∀ i, i < n → (vals i).toNat < 2 ^ w) →
      ∀ i, i < n → toValue (toLane vals n) w i = vals i) ∧
    (∀ planes : Nat → PlaneWord, (∀ b k, b < w → n ≤ k → (planes b).getLsbD k = false) →
      ∀ b, b < w → toLane (toValue planes w) n b = planes b)

/-- R68: bit `i` of a plane of `toLane` depends only on entry `i`, and entry `i` of `toValue` only on bit
`i` of each plane. -/
def Obligations.TranspositionKeepsLanesApart : Prop :=
  (∀ (f g : Nat → Word) (n b i : Nat), i < C → f i = g i →
    (toLane f n b).getLsbD i = (toLane g n b).getLsbD i) ∧
  (∀ (f g : Nat → PlaneWord) (w i : Nat), i < C →
    (∀ b, b < w → (f b).getLsbD i = (g b).getLsbD i) → toValue f w i = toValue g w i)

/-- R72: an ENCODE that completes with OK, then a DECODE of its destination in any later state in which
the buffer has the same tag. If bits 0 .. N-1 of its planes 0 .. W-1 are as the ENCODE left them, the
DECODE gives the values with T = 0, and the values cut to W bits in either case, and 0 from entry N on.
If some of those bits were changed (by WPLANE), only the value bits that lie there can differ. -/
def Obligations.EncodeThenDecodeGivesValues : Prop :=
  ∀ (s t u : State) (d : LaneBuf) (v v' : ValueBuf) (w n : Nat) (x : Bool),
    s.params.wellFormed = true → exec (.encode d v w n x) s = .next t → t.phase = .resp ⟨0, 0⟩ →
    u.tag d = t.tag d →
    ∃ r, exec (.decode v' d) u = .next r ∧ Completes u r .ok 0 ∧
      ((∀ p i, p < w → i < n → (u.plane d p).getLsbD i = (t.plane d p).getLsbD i) →
        (∀ i, i < n → (r.entry v' i).toNat = (s.entry v i).toNat % 2 ^ w) ∧
        (x = false → ∀ i, i < n → r.entry v' i = s.entry v i)) ∧
      (∀ p i, p < w → i < n → (u.plane d p).getLsbD i = (t.plane d p).getLsbD i →
        (r.entry v' i).getLsbD p = (s.entry v i).getLsbD p) ∧
      (∀ i, n ≤ i → i < C → r.entry v' i = 0)

/-! ### Lane adder -/

/-- R80: one plane step is, in every lane, a full adder. -/
def Obligations.PlaneStepIsFullAdder : Prop :=
  ∀ (x y c : PlaneWord) (i : Nat),
    ((fullAdderSum x y c).getLsbD i).toNat + 2 * ((fullAdderCarry x y c).getLsbD i).toNat =
      (x.getLsbD i).toNat + (y.getLsbD i).toNat + (c.getLsbD i).toNat

/-- R84: ADD of two shaped buffers of one shape into a third is, lane by lane, addition modulo 2^W, with
the overflow in the destination's carry register; planes at and above W, bits at and above N, and
every other buffer as R82 says. -/
def Obligations.AddIsLanewiseAddition : Prop :=
  ∀ (s : State) (d a b : LaneBuf), s.params.wellFormed = true →
    LaneBuffer.Legal s.params s.lane[a] → (s.tag a).valid = true → s.tag b = s.tag a →
    d ≠ a → d ≠ b →
    ∃ t, exec (.add d a b) s = .next t ∧ Completes s t .ok 0 ∧
      (∀ i, i < s.tagN a →
        let x := (toValue (s.plane a) (s.tagW a) i).toNat
        let y := (toValue (s.plane b) (s.tagW a) i).toNat
        let z := (toValue (t.plane d) (s.tagW a) i).toNat
        z = (x + y) % 2 ^ s.tagW a ∧
          ((t.carry d).getLsbD i = true ↔ 2 ^ s.tagW a ≤ x + y) ∧
          x + y = z + 2 ^ s.tagW a * ((t.carry d).getLsbD i).toNat) ∧
      (∀ p, p < WMAX → s.tagW a ≤ p → t.plane d p = 0) ∧
      (∀ p k, p < WMAX → s.tagN a ≤ k → (t.plane d p).getLsbD k = false) ∧
      (∀ k, s.tagN a ≤ k → (t.carry d).getLsbD k = false) ∧
      t.tag d = s.tag a ∧ OtherLanesKept s t d ∧ t.value = s.value ∧ t.erracc = s.erracc

/-- R82, R120, R122: ADD's errors, UNINIT before ALIAS before SHAPE. -/
def Obligations.AddErrorsRaise : Prop :=
  ∀ (s : State) (d a b : LaneBuf),
    ((s.tag a).valid = false ∨ (s.tag b).valid = false →
      ∃ t, exec (.add d a b) s = .next t ∧ Raises s t .uninit) ∧
    ((s.tag a).valid = true → (s.tag b).valid = true → d = a ∨ d = b →
      ∃ t, exec (.add d a b) s = .next t ∧ Raises s t .aliasing) ∧
    ((s.tag a).valid = true → (s.tag b).valid = true → d ≠ a → d ≠ b →
      s.tagW a ≠ s.tagW b ∨ s.tagN a ≠ s.tagN b →
      ∃ t, exec (.add d a b) s = .next t ∧ Raises s t .shape)

/-- R86: ADD is commutative in all it does, errors included, and adding a buffer whose planes 0 .. W-1
are 0 under the lane mask copies the other operand and gives no carry. -/
def Obligations.AddCommutesWithZeroIdentity : Prop :=
  (∀ (s : State) (d a b : LaneBuf), exec (.add d a b) s = exec (.add d b a) s) ∧
  (∀ (s : State) (d a b : LaneBuf), s.params.wellFormed = true →
    LaneBuffer.Legal s.params s.lane[a] → (s.tag a).valid = true → s.tag b = s.tag a →
    d ≠ a → d ≠ b → (∀ p, p < s.tagW a → s.plane b p &&& laneMask (s.tagN a) = 0) →
    ∃ t, exec (.add d a b) s = .next t ∧ t.phase = .resp ⟨0, 0⟩ ∧ t.carry d = 0 ∧
      ∀ p, p < s.tagW a → t.plane d p = s.plane a p &&& laneMask (s.tagN a))

/-- R87: bit `i` of every sum plane and of the carry word depends only on bit `i` of the two sources'
planes 0 .. W-1. -/
def Obligations.AddKeepsLanesApart : Prop :=
  ∀ (s s' t t' : State) (d a b : LaneBuf) (i : Nat),
    exec (.add d a b) s = .next t → exec (.add d a b) s' = .next t' →
    t.phase = .resp ⟨0, 0⟩ → t'.phase = .resp ⟨0, 0⟩ → s'.tag a = s.tag a →
    (∀ p, p < s.tagW a → (s'.plane a p).getLsbD i = (s.plane a p).getLsbD i) →
    (∀ p, p < s.tagW a → (s'.plane b p).getLsbD i = (s.plane b p).getLsbD i) →
    (∀ p, p < WMAX → (t'.plane d p).getLsbD i = (t.plane d p).getLsbD i) ∧
      (t'.carry d).getLsbD i = (t.carry d).getLsbD i

/-- R24, U7: what lies outside a source's lane array (planes at and above W, bits at and above N) never
reaches the result of DECODE or ADD. -/
def Obligations.OnlyLaneArrayReachesResult : Prop :=
  (∀ (s s' t t' : State) (d a b : LaneBuf), exec (.add d a b) s = .next t →
    exec (.add d a b) s' = .next t' → t.phase = .resp ⟨0, 0⟩ → s'.tag a = s.tag a →
    s'.tag b = s.tag b →
    (∀ p, p < s.tagW a → s'.plane a p &&& laneMask (s.tagN a) = s.plane a p &&& laneMask (s.tagN a)) →
    (∀ p, p < s.tagW a → s'.plane b p &&& laneMask (s.tagN a) = s.plane b p &&& laneMask (s.tagN a)) →
    t'.lane[d] = t.lane[d]) ∧
  (∀ (s s' t t' : State) (d : ValueBuf) (l : LaneBuf), exec (.decode d l) s = .next t →
    exec (.decode d l) s' = .next t' → t.phase = .resp ⟨0, 0⟩ → s'.tag l = s.tag l →
    (∀ p, p < s.tagW l → s'.plane l p &&& laneMask (s.tagN l) = s.plane l p &&& laneMask (s.tagN l)) →
    t'.value[d] = t.value[d])

/-- R88: a sum of two W-bit parts from three additions: the lower parts, the upper parts, and the lower
carry word (as plane 0 of a buffer of zeros) onto the upper sum. In each lane at most one of the two
upper additions overflows, and the overflow of the whole is the OR of their carry words. -/
def Obligations.WideSumFromThreeAdditions : Prop :=
  ∀ (aLo bLo aHi bHi : Nat → PlaneWord) (w n i : Nat), 1 ≤ w → w ≤ WMAX → n ≤ C → i < n →
    let m := laneMask n
    let cLo := carryInto aLo bLo m w
    let hi1 := sumPlane aHi bHi m
    let c1 := carryInto aHi bHi m w
    let carryPlanes : Nat → PlaneWord := fun p => if p = 0 then cLo else 0
    let hi2 := sumPlane hi1 carryPlanes m
    let c2 := carryInto hi1 carryPlanes m w
    let wide := fun lo hi : Nat → PlaneWord => (toValue lo w i).toNat + 2 ^ w * (toValue hi w i).toNat
    wide aLo aHi + wide bLo bHi =
        wide (sumPlane aLo bLo m) hi2 + 2 ^ (2 * w) * ((c1 ||| c2).getLsbD i).toNat ∧
      ¬(c1.getLsbD i = true ∧ c2.getLsbD i = true)

/-! ### The block edge by edge -/

/-- R32, R150, R151: clocked from the edge that accepts it, with nothing further offered, a command is
after 1 + W (ENCODE, ADD), 1 + N (DECODE) or 1 edges in exactly the state, response included, that the
atomic meaning gives. How edges are counted is the model's reading (log entry 4), and that the host holds
no earlier offer is said of its own field (log entry 3). -/
def Obligations.ClockedCommandEqualsAtomicCommand : Prop :=
  ∀ (s : State) (c : Command) (ready : Bool), s.phase = .idle → s.held = none →
    clockRun (commandEdges c (1 + commandSteps c s) ready) s = executeCommand c (s.accept c)

/-- R32, R44, R146: a step on an offered command is the same as clocking it to the edge at which a ready
host takes its response. The step, the inbox, the outbox and the remembered offer are the model's (log
entries 1, 2 and 3), and how edges are counted is its reading (log entry 4). -/
def Obligations.StepEqualsClockedCommand : Prop :=
  ∀ (s : State) (c : Command) (rest : List HostInput), s.phase = .idle → s.held = none →
    s.inbox = .command c :: rest →
    step s = clockRun (commandEdges c (1 + commandSteps c s + 1) true) { s with inbox := rest }

/-- R150, R152: until its latency is over a command gives no response and the block accepts nothing; at
its latency it responds; the latency is W + 1, N + 1 or 1 by command, and at most 33 in a legal state.
How edges are counted is the model's reading (log entry 4). -/
def Obligations.ResponseComesAtLatency : Prop :=
  ∀ (s : State) (c : Command) (ready : Bool), s.Legal →
    (∀ k, k ≤ commandSteps c s → ∃ t, clockRun (commandEdges c k ready) s = .next t ∧
      t.rspPort false = none ∧ t.cmdReady false = false) ∧
    (∃ t r, clockRun (commandEdges c (1 + commandSteps c s) ready) s = .next t ∧
      t.rspPort false = some r ∧
      (r.err ≠ 0 → commandSteps c s = 0) ∧
      (r.err = 0 → ∀ i, decodeCommand c.word c.data = .ok i → commandSteps c s =
        match i with
        | .encode _ _ w _ _ => w
        | .add _ a _ => s.tagW a
        | .decode _ l => s.tagN l
        | _ => 0)) ∧
    1 + commandSteps c s ≤ 1 + max WMAX C

/-! ### Assembler -/

/-- R62: the rule's own examples. -/
def Obligations.SyntaxExamplesAssemble : Prop :=
  assembleLine ['E', 'N', 'C', 'O', 'D', 'E', ' ', 'L', '1', ',', ' ', 'V', '0', ',', ' ', '8', ',',
    ' ', '4'] = .command ⟨0x74081000, 0⟩ ∧
  assembleLine ['E', 'N', 'C', 'O', 'D', 'E', '.', 'T', ' ', 'L', '1', ',', ' ', 'V', '0', ',', ' ',
    '8', ',', ' ', '4'] = .command ⟨0x74081200, 0⟩ ∧
  assembleLine ['A', 'D', 'D', ' ', 'L', '2', ',', ' ', 'L', '0', ',', ' ', 'L', '1'] =
    .command ⟨0x98400000, 0⟩ ∧
  assembleLine ['D', 'E', 'C', 'O', 'D', 'E', ' ', 'V', '3', ',', ' ', 'L', '2'] =
    .command ⟨0x8E000000, 0⟩ ∧
  assembleLine ['W', 'V', 'A', 'L', ' ', 'V', '2', ',', ' ', '5', ',', ' ', '#', '7'] =
    .command ⟨0x18000005, 7⟩

/-- R64: assembling what a command disassembles to gives its command word back, and its data word where
the command is WVAL or WPLANE (0 otherwise). That the assembler reads `.word`, and how numbers are
printed, is the model's choice (log entry 10). -/
def Obligations.AssemblingDisassemblyGivesCommandBack : Prop :=
  ∀ c : Command, assembleLine (disassemble c) =
    .command ⟨c.word, match decodeCommand c.word c.data with
      | .ok (.wval _ _ _) => c.data
      | .ok (.wplane _ _ _) => c.data
      | _ => 0⟩

/-- R63: every command of the expansion of a well-formed pseudo-instruction is well formed, and the
expansions have the lengths of R63. Which operand numbers make one well formed is the model's choice (log
entry 10). -/
def Obligations.PseudoExpansionsAreWellFormed : Prop :=
  ∀ p : Pseudo, p.wellFormed = true →
    (∀ i ∈ expandPseudo p, i.wellFormed = true) ∧
    (expandPseudo p).length =
      match p with
      | .vload _ xs => xs.length
      | .vread _ n => n
      | .lzero _ w _ => 1 + w
      | .addv _ _ _ _ _ => 4
end

