-- ==== Sys2Proof/Laws/Asm.lean ====
section
/-! SUPPORT. One lemma per reader of the assembler: it reads back what the disassembler spells (R62, R64). -/

namespace Sys2Proof.Machine

/-! ### Numbers -/

theorem digitValue_digitChar {base d : Nat} (hb : base ≤ 16) (h : d < base) :
    digitValue base (digitChar d) = some d := by
  have all : ∀ d, d < 16 → digitValue 16 (digitChar d) = some d := by decide
  have := all d (by omega)
  simp only [digitValue, Option.filter_eq_some_iff] at this ⊢
  exact ⟨this.1, by simpa using h⟩

theorem readDigits_append (base : Nat) (xs ys : List Char) (acc : Nat) :
    readDigits base (xs ++ ys) acc = (readDigits base xs acc).bind (readDigits base ys) := by
  induction xs generalizing acc with
  | nil => rfl
  | cons c cs ih => cases h : digitValue base c <;> simp [readDigits, h, ih]

/-- Decimal digits read back. -/
theorem readDigits_decimal {fuel n acc : Nat} (h : n < 10 ^ fuel) :
    ∃ k, readDigits 10 (decimal fuel n) acc = some (acc * 10 ^ k + n) := by
  induction fuel generalizing n with
  | zero => exact ⟨0, by simp [decimal, readDigits]; simpa using h⟩
  | succ f ih =>
    unfold decimal
    by_cases hn : n < 10
    · exact ⟨1, by simp [hn, readDigits, digitValue_digitChar]⟩
    · obtain ⟨k, hk⟩ := ih (n := n / 10) (by rw [Nat.pow_succ] at h; omega)
      refine ⟨k + 1, ?_⟩
      rw [if_neg hn, readDigits_append, hk]
      simp only [Option.bind_some, readDigits,
        digitValue_digitChar (by decide : 10 ≤ 16) (Nat.mod_lt n (by decide : 10 > 0))]
      congr 1
      have := Nat.div_add_mod n 10
      rw [Nat.pow_succ, Nat.add_mul, Nat.mul_assoc]; omega

/-- Hexadecimal digits read back. -/
theorem readDigits_hexDigits {k n acc : Nat} :
    readDigits 16 (hexDigits k n) acc = some (acc * 16 ^ k + n % 16 ^ k) := by
  induction k generalizing n with
  | zero => simp [hexDigits, readDigits, Nat.mod_one]
  | succ k ih =>
    unfold hexDigits
    rw [readDigits_append, ih]
    simp only [Option.bind_some, readDigits,
      digitValue_digitChar (by decide : 16 ≤ 16) (Nat.mod_lt n (by decide : 16 > 0))]
    congr 1
    rw [Nat.pow_succ, Nat.mul_comm (16 ^ k) 16, Nat.mod_mul]
    rw [Nat.add_mul, Nat.mul_assoc, Nat.mul_comm 16 (16 ^ k)]
    omega

theorem decimal_chars {fuel n : Nat} {c : Char} (h : c ∈ decimal fuel n) :
    ∃ d, d < 10 ∧ c = digitChar d := by
  induction fuel generalizing n with
  | zero => simp [decimal] at h
  | succ f ih =>
    unfold decimal at h
    split at h
    · exact ⟨n, by assumption, by simpa using h⟩
    · rcases List.mem_append.1 h with h | h
      · exact ih h
      · exact ⟨n % 10, Nat.mod_lt _ (by decide), by simpa using h⟩

theorem hexDigits_chars {k n : Nat} {c : Char} (h : c ∈ hexDigits k n) :
    ∃ d, d < 16 ∧ c = digitChar d := by
  induction k generalizing n with
  | zero => simp [hexDigits] at h
  | succ f ih =>
    rcases List.mem_append.1 (show c ∈ hexDigits f (n / 16) ++ [digitChar (n % 16)] from h) with h | h
    · exact ih h
    · exact ⟨n % 16, Nat.mod_lt _ (by decide), by simpa using h⟩

theorem decimal_ne_nil (fuel n : Nat) : decimal (fuel + 1) n ≠ [] := by
  unfold decimal; split <;> simp

/-- A decimal number reads back. -/
theorem readNumber_decimal {fuel n : Nat} (h : n < 10 ^ (fuel + 1)) :
    readNumber (decimal (fuel + 1) n) = some n := by
  obtain ⟨k, hk⟩ := readDigits_decimal (acc := 0) h
  have hx : ∀ c ∈ decimal (fuel + 1) n, c ≠ 'x' := by
    intro c hc e
    obtain ⟨d, hd, rfl⟩ := decimal_chars hc
    revert e; interval_cases d <;> decide
  have hne := decimal_ne_nil fuel n
  generalize decimal (fuel + 1) n = cs at hk hx hne
  unfold readNumber
  split
  · exact absurd rfl (hx 'x' (by simp))
  · exact absurd rfl hne
  · simpa using hk

/-- A hexadecimal number of eight digits reads back. -/
theorem readNumber_hex {n : Nat} (h : n < 2 ^ 32) :
    readNumber ('0' :: 'x' :: hexDigits 8 n) = some n := by
  have hk := readDigits_hexDigits (k := 8) (n := n) (acc := 0)
  have hne : hexDigits 8 n ≠ [] := by simp [hexDigits]
  revert hk hne
  generalize hexDigits 8 n = cs
  intro hk hne
  cases cs with
  | nil => exact absurd rfl hne
  | cons c cs => simp only [readNumber, hk]; congr 1; omega

theorem readField6_spellField {k : Nat} (h : k < 64) : readField6 (spellField k) = some k := by
  simp [readField6, spellField, readNumber_decimal (fuel := 1) (by omega : k < 10 ^ 2), fits6, h]

theorem readData_spellData (x : Word) : readData (spellData x) = some x := by
  have := x.isLt
  simp [readData, spellData, readNumber_decimal (fuel := 9) (by omega : x.toNat < 10 ^ 10), this]

theorem readV_spellV (v : ValueBuf) : readV (spellV v) = some v := by revert v; decide

theorem readL_spellL (l : LaneBuf) : readL (spellL l) = some l := by revert l; decide

theorem readMnemonic_spelling (m : Mnemonic) : readMnemonic m.spelling = some m := by
  cases m with
  | op o => cases o <;> decide
  | encodeT => decide
  | rawWord => decide

/-! ### Lines -/

/-- A text with no blank, comma or semicolon in it, and not empty: one operand. -/
def IsToken (cs : List Char) : Prop :=
  cs ≠ [] ∧ ∀ c ∈ cs, isBlank c = false ∧ c ≠ ',' ∧ c ≠ ';'

theorem digitChar_plain {d : Nat} (h : d < 16) :
    isBlank (digitChar d) = false ∧ digitChar d ≠ ',' ∧ digitChar d ≠ ';' := by
  interval_cases d <;> decide

theorem isToken_spellV (v : ValueBuf) : IsToken (spellV v) := by
  refine ⟨by simp [spellV], fun c hc => ?_⟩
  simp only [spellV, List.mem_cons, List.not_mem_nil, or_false] at hc
  rcases hc with rfl | rfl
  · decide
  · exact digitChar_plain (Nat.lt_trans v.isLt (by decide))

theorem isToken_spellL (l : LaneBuf) : IsToken (spellL l) := by
  refine ⟨by simp [spellL], fun c hc => ?_⟩
  simp only [spellL, List.mem_cons, List.not_mem_nil, or_false] at hc
  rcases hc with rfl | rfl
  · decide
  · exact digitChar_plain (Nat.lt_trans l.isLt (by decide))

theorem isToken_spellField (k : Nat) : IsToken (spellField k) := by
  refine ⟨decimal_ne_nil 1 k, fun c hc => ?_⟩
  obtain ⟨d, hd, rfl⟩ := decimal_chars hc
  exact digitChar_plain (by omega)

theorem isToken_spellData (x : Word) : IsToken (spellData x) := by
  refine ⟨by simp [spellData], fun c hc => ?_⟩
  rcases List.mem_cons.1 hc with rfl | hc
  · decide
  · obtain ⟨d, hd, rfl⟩ := decimal_chars hc
    exact digitChar_plain (by omega)

theorem isToken_hex (n : Nat) : IsToken ('0' :: 'x' :: hexDigits 8 n) := by
  refine ⟨by simp, fun c hc => ?_⟩
  simp only [List.mem_cons] at hc
  rcases hc with rfl | rfl | hc
  · decide
  · decide
  · obtain ⟨d, hd, rfl⟩ := hexDigits_chars hc
    exact digitChar_plain hd

theorem isToken_spelling (m : Mnemonic) : IsToken m.spelling := by
  cases m with
  | op o => cases o <;> exact ⟨by decide, by simp [Mnemonic.spelling, isBlank]⟩
  | encodeT => exact ⟨by decide, by simp [Mnemonic.spelling, isBlank]⟩
  | rawWord => exact ⟨by decide, by simp [Mnemonic.spelling, isBlank]⟩

theorem dropWhile_blank_of_token {cs : List Char} (h : IsToken cs) (rest : List Char) :
    (cs ++ rest).dropWhile isBlank = cs ++ rest := by
  obtain ⟨hne, hc⟩ := h
  cases cs with
  | nil => exact absurd rfl hne
  | cons c cs => simp [(hc c (by simp)).1]

/-- A text that begins and ends in operands has no blanks to trim. -/
theorem trim_of_ends {cs t u x y : List Char} (ht : IsToken t) (hu : IsToken u) (h1 : cs = t ++ x)
    (h2 : cs = y ++ u) : trim cs = cs := by
  have hr := dropWhile_blank_of_token (cs := u.reverse)
    ⟨by simpa using hu.1, fun c hc => hu.2 c (by simpa using hc)⟩ y.reverse
  have hl : cs.dropWhile isBlank = cs := by rw [h1, dropWhile_blank_of_token ht]
  rw [trim, hl, h2, List.reverse_append, hr, List.reverse_append, List.reverse_reverse,
    List.reverse_reverse]

theorem trim_token {cs : List Char} (h : IsToken cs) : trim cs = cs :=
  trim_of_ends h h (x := []) (y := []) (by simp) (by simp)

theorem trim_blank (cs : List Char) : trim (' ' :: cs) = trim cs := by simp [trim, isBlank]

theorem splitCommas_ne_nil (cs : List Char) : splitCommas cs ≠ [] := by
  cases cs with
  | nil => simp [splitCommas]
  | cons c cs =>
    unfold splitCommas
    split <;> simp_all
    split <;> simp

theorem splitCommas_cons {c : Char} (h : c ≠ ',') (cs : List Char) :
    splitCommas (c :: cs) =
      match splitCommas cs with
      | [] => [[c]]
      | part :: parts => (c :: part) :: parts := by
  conv_lhs => unfold splitCommas
  split
  · simp at *
  · simp_all
  · rename_i e
    obtain ⟨rfl, rfl⟩ := List.cons.inj e
    rfl

theorem splitCommas_plain {cs : List Char} (h : ∀ c ∈ cs, c ≠ ',') (rest : List Char) :
    ∃ part parts, splitCommas rest = part :: parts ∧
      splitCommas (cs ++ rest) = (cs ++ part) :: parts := by
  obtain ⟨part, parts, hr⟩ := List.exists_cons_of_ne_nil (splitCommas_ne_nil rest)
  refine ⟨part, parts, hr, ?_⟩
  induction cs with
  | nil => simpa using hr
  | cons c cs ih =>
    rw [List.cons_append, splitCommas_cons (h c (by simp)), ih fun c hc => h c (by simp [hc])]
    rfl

theorem splitCommas_token {t : List Char} (h : IsToken t) : splitCommas t = [t] := by
  obtain ⟨part, parts, h1, h2⟩ := splitCommas_plain (fun c hc => (h.2 c hc).2.1) []
  simp only [splitCommas, List.cons.injEq] at h1
  obtain ⟨rfl, rfl⟩ := h1
  simpa using h2

theorem splitCommas_comma {t : List Char} (h : IsToken t) (rest : List Char) :
    splitCommas (t ++ ',' :: rest) = t :: splitCommas rest := by
  obtain ⟨part, parts, h1, h2⟩ := splitCommas_plain (fun c hc => (h.2 c hc).2.1) (',' :: rest)
  simp only [splitCommas, List.cons.injEq] at h1
  obtain ⟨rfl, rfl⟩ := h1
  simpa using h2

theorem map_trim_splitCommas_blank (cs : List Char) :
    (splitCommas (' ' :: cs)).map trim = (splitCommas cs).map trim := by
  obtain ⟨part, parts, h⟩ := List.exists_cons_of_ne_nil (splitCommas_ne_nil cs)
  rw [splitCommas_cons (by decide), h]
  simp [trim_blank]

/-- The operands of a line, spelled and joined: a blank, and a text that begins and ends in an operand, has
no semicolon, and splits at its commas into the operands. -/
theorem joinOperands_cons {t : List Char} (ht : IsToken t) {ts : List (List Char)}
    (hts : ∀ u ∈ ts, IsToken u) :
    ∃ x y u, IsToken u ∧ joinOperands (t :: ts) = ' ' :: (t ++ x) ∧ t ++ x = y ++ u ∧
      (∀ c ∈ t ++ x, c ≠ ';') ∧ (splitCommas (t ++ x)).map trim = t :: ts := by
  induction ts generalizing t with
  | nil =>
    exact ⟨[], [], t, ht, by simp [joinOperands], by simp, by simpa using fun c hc => (ht.2 c hc).2.2,
      by simp [splitCommas_token ht, trim_token ht]⟩
  | cons v ts ih =>
    obtain ⟨x, y, u, hu, h1, h2, h3, h4⟩ := ih (hts v (by simp)) fun u hu => hts u (by simp [hu])
    refine ⟨',' :: ' ' :: (v ++ x), t ++ ',' :: ' ' :: y, u, hu, ?_, ?_, ?_, ?_⟩
    · simp [joinOperands, h1]
    · simp [h2]
    · intro c hc
      rcases List.mem_append.1 hc with hc | hc
      · exact (ht.2 c hc).2.2
      · rcases List.mem_cons.1 hc with rfl | hc
        · decide
        · rcases List.mem_cons.1 hc with rfl | hc
          · decide
          · exact h3 c hc
    · rw [splitCommas_comma ht, List.map_cons, map_trim_splitCommas_blank, h4, trim_token ht]

/-- The operands of a line read back from their joined text. -/
theorem operands_joinOperands {ts : List (List Char)} (h : ∀ t ∈ ts, IsToken t) :
    operands (joinOperands ts) = ts := by
  cases ts with
  | nil => rfl
  | cons t ts =>
    obtain ⟨x, y, u, hu, h1, h2, -, h4⟩ := joinOperands_cons (ts := ts) (h t (by simp))
      fun u hu => h u (by simp [hu])
    have ht := h t (by simp)
    rw [operands, h1, trim_blank, trim_of_ends ht hu rfl h2]
    obtain ⟨c, cs, hc⟩ := List.exists_cons_of_ne_nil
      (show t ++ x ≠ [] from fun e => ht.1 (List.append_eq_nil_iff.1 e).1)
    rw [hc] at h4 ⊢
    exact h4

/-- A spelled line reads back as its mnemonic and its operands. -/
theorem assembleLine_spelled (m : Mnemonic) {ts : List (List Char)} (h : ∀ t ∈ ts, IsToken t) :
    assembleLine (m.spelling ++ joinOperands ts) =
      (assembleOperands m ts).elim .rejected .command := by
  have hm := isToken_spelling m
  have hsemi : ∀ c ∈ m.spelling ++ joinOperands ts, c ≠ ';' := by
    intro c hc
    rcases List.mem_append.1 hc with hc | hc
    · exact (hm.2 c hc).2.2
    · cases ts with
      | nil => simp [joinOperands] at hc
      | cons t ts =>
        obtain ⟨x, y, u, hu, h1, h2, h3, h4⟩ := joinOperands_cons (ts := ts) (h t (by simp))
          fun u hu => h u (by simp [hu])
        rw [h1] at hc
        rcases List.mem_cons.1 hc with rfl | hc
        · decide
        · exact h3 c hc
  have hends : trim (m.spelling ++ joinOperands ts) = m.spelling ++ joinOperands ts := by
    cases ts with
    | nil => simpa [joinOperands] using trim_token hm
    | cons t ts =>
      obtain ⟨x, y, u, hu, h1, h2, h3, h4⟩ := joinOperands_cons (ts := ts) (h t (by simp))
        fun u hu => h u (by simp [hu])
      exact trim_of_ends hm hu rfl (y := m.spelling ++ ' ' :: y) (by rw [h1, h2]; simp)
  have htake : (m.spelling ++ joinOperands ts).takeWhile (fun c => c ≠ ';') =
      m.spelling ++ joinOperands ts := by
    rw [List.takeWhile_eq_self_iff]; intro c hc; simpa using hsemi c hc
  have hplain : ∀ c ∈ m.spelling, (!isBlank c) = true := fun c hc => by simp [(hm.2 c hc).1]
  have hhead : ∀ p : Char → Bool, p = (fun c => !isBlank c) →
      (joinOperands ts).takeWhile p = [] ∧ (joinOperands ts).dropWhile p = joinOperands ts := by
    rintro _ rfl
    cases ts with
    | nil => simp [joinOperands]
    | cons t ts =>
      obtain ⟨x, y, u, hu, h1, -⟩ := joinOperands_cons (ts := ts) (h t (by simp)) fun u hu => h u (by simp [hu])
      rw [h1]; simp [isBlank]
  obtain ⟨hh1, hh2⟩ := hhead _ rfl
  obtain ⟨c, cs, hc⟩ := List.exists_cons_of_ne_nil
    (show m.spelling ++ joinOperands ts ≠ [] from fun e => hm.1 (List.append_eq_nil_iff.1 e).1)
  have ht1 : (m.spelling ++ joinOperands ts).takeWhile (fun c => !isBlank c) = m.spelling := by
    rw [List.takeWhile_append_of_pos hplain, hh1, List.append_nil]
  have ht2 : (m.spelling ++ joinOperands ts).dropWhile (fun c => !isBlank c) = joinOperands ts := by
    rw [List.dropWhile_append_of_pos hplain, hh2]
  rw [assembleLine, htake, hends]
  rw [hc] at ht1 ht2 ⊢
  simp only [ht1, ht2, readMnemonic_spelling, operands_joinOperands h]
  cases assembleOperands m ts <;> rfl

end Sys2Proof.Machine
end

