-- ==== Sys2Proof/Laws/State.lean ====
section
/-! SUPPORT. One lemma per field per update of the state, each true by rfl, so that no proof unfolds a
record update. -/

namespace Sys2Proof.Machine

open Sys2Proof.Config (C WMAX NV NL)

variable (s : State)

@[simp] theorem State.setValues_params (v : ValueBuf) (b : Vector Word C) :
    (s.setValues v b).params = s.params := rfl
@[simp] theorem State.setValues_value (v : ValueBuf) (b : Vector Word C) :
    (s.setValues v b).value = s.value.set v b := rfl
@[simp] theorem State.setValues_lane (v : ValueBuf) (b : Vector Word C) :
    (s.setValues v b).lane = s.lane := rfl
@[simp] theorem State.setValues_erracc (v : ValueBuf) (b : Vector Word C) :
    (s.setValues v b).erracc = s.erracc := rfl
@[simp] theorem State.setValues_phase (v : ValueBuf) (b : Vector Word C) :
    (s.setValues v b).phase = s.phase := rfl
@[simp] theorem State.setValues_latched (v : ValueBuf) (b : Vector Word C) :
    (s.setValues v b).latched = s.latched := rfl
@[simp] theorem State.setValues_held (v : ValueBuf) (b : Vector Word C) :
    (s.setValues v b).held = s.held := rfl
@[simp] theorem State.setValues_inbox (v : ValueBuf) (b : Vector Word C) :
    (s.setValues v b).inbox = s.inbox := rfl
@[simp] theorem State.setValues_outbox (v : ValueBuf) (b : Vector Word C) :
    (s.setValues v b).outbox = s.outbox := rfl

@[simp] theorem State.setEntry_params (v : ValueBuf) (i : Nat) (x : Word) :
    (s.setEntry v i x).params = s.params := rfl
@[simp] theorem State.setEntry_value (v : ValueBuf) (i : Nat) (x : Word) :
    (s.setEntry v i x).value = s.value.set v ((s.value[v]).setIfInBounds i x) := rfl
@[simp] theorem State.setEntry_lane (v : ValueBuf) (i : Nat) (x : Word) :
    (s.setEntry v i x).lane = s.lane := rfl
@[simp] theorem State.setEntry_erracc (v : ValueBuf) (i : Nat) (x : Word) :
    (s.setEntry v i x).erracc = s.erracc := rfl
@[simp] theorem State.setEntry_phase (v : ValueBuf) (i : Nat) (x : Word) :
    (s.setEntry v i x).phase = s.phase := rfl
@[simp] theorem State.setEntry_latched (v : ValueBuf) (i : Nat) (x : Word) :
    (s.setEntry v i x).latched = s.latched := rfl
@[simp] theorem State.setEntry_held (v : ValueBuf) (i : Nat) (x : Word) :
    (s.setEntry v i x).held = s.held := rfl
@[simp] theorem State.setEntry_inbox (v : ValueBuf) (i : Nat) (x : Word) :
    (s.setEntry v i x).inbox = s.inbox := rfl
@[simp] theorem State.setEntry_outbox (v : ValueBuf) (i : Nat) (x : Word) :
    (s.setEntry v i x).outbox = s.outbox := rfl

@[simp] theorem State.setLane_params (l : LaneBuf) (b : LaneBuffer) :
    (s.setLane l b).params = s.params := rfl
@[simp] theorem State.setLane_value (l : LaneBuf) (b : LaneBuffer) :
    (s.setLane l b).value = s.value := rfl
@[simp] theorem State.setLane_lane (l : LaneBuf) (b : LaneBuffer) :
    (s.setLane l b).lane = s.lane.set l b := rfl
@[simp] theorem State.setLane_erracc (l : LaneBuf) (b : LaneBuffer) :
    (s.setLane l b).erracc = s.erracc := rfl
@[simp] theorem State.setLane_phase (l : LaneBuf) (b : LaneBuffer) :
    (s.setLane l b).phase = s.phase := rfl
@[simp] theorem State.setLane_latched (l : LaneBuf) (b : LaneBuffer) :
    (s.setLane l b).latched = s.latched := rfl
@[simp] theorem State.setLane_held (l : LaneBuf) (b : LaneBuffer) :
    (s.setLane l b).held = s.held := rfl
@[simp] theorem State.setLane_inbox (l : LaneBuf) (b : LaneBuffer) :
    (s.setLane l b).inbox = s.inbox := rfl
@[simp] theorem State.setLane_outbox (l : LaneBuf) (b : LaneBuffer) :
    (s.setLane l b).outbox = s.outbox := rfl

@[simp] theorem State.setPlane_params (l : LaneBuf) (p : Nat) (x : PlaneWord) :
    (s.setPlane l p x).params = s.params := rfl
@[simp] theorem State.setPlane_value (l : LaneBuf) (p : Nat) (x : PlaneWord) :
    (s.setPlane l p x).value = s.value := rfl
@[simp] theorem State.setPlane_lane (l : LaneBuf) (p : Nat) (x : PlaneWord) :
    (s.setPlane l p x).lane = s.lane.set l { s.lane[l] with planes := (s.lane[l]).planes.setIfInBounds p x } := rfl
@[simp] theorem State.setPlane_erracc (l : LaneBuf) (p : Nat) (x : PlaneWord) :
    (s.setPlane l p x).erracc = s.erracc := rfl
@[simp] theorem State.setPlane_phase (l : LaneBuf) (p : Nat) (x : PlaneWord) :
    (s.setPlane l p x).phase = s.phase := rfl
@[simp] theorem State.setPlane_latched (l : LaneBuf) (p : Nat) (x : PlaneWord) :
    (s.setPlane l p x).latched = s.latched := rfl
@[simp] theorem State.setPlane_held (l : LaneBuf) (p : Nat) (x : PlaneWord) :
    (s.setPlane l p x).held = s.held := rfl
@[simp] theorem State.setPlane_inbox (l : LaneBuf) (p : Nat) (x : PlaneWord) :
    (s.setPlane l p x).inbox = s.inbox := rfl
@[simp] theorem State.setPlane_outbox (l : LaneBuf) (p : Nat) (x : PlaneWord) :
    (s.setPlane l p x).outbox = s.outbox := rfl

@[simp] theorem State.setShape_params (l : LaneBuf) (w n : Nat) (c : PlaneWord) :
    (s.setShape l w n c).params = s.params := rfl
@[simp] theorem State.setShape_value (l : LaneBuf) (w n : Nat) (c : PlaneWord) :
    (s.setShape l w n c).value = s.value := rfl
@[simp] theorem State.setShape_lane (l : LaneBuf) (w n : Nat) (c : PlaneWord) :
    (s.setShape l w n c).lane = s.lane.set l { s.lane[l] with tag := Tag.ofShape w n, carry := c } := rfl
@[simp] theorem State.setShape_erracc (l : LaneBuf) (w n : Nat) (c : PlaneWord) :
    (s.setShape l w n c).erracc = s.erracc := rfl
@[simp] theorem State.setShape_phase (l : LaneBuf) (w n : Nat) (c : PlaneWord) :
    (s.setShape l w n c).phase = s.phase := rfl
@[simp] theorem State.setShape_latched (l : LaneBuf) (w n : Nat) (c : PlaneWord) :
    (s.setShape l w n c).latched = s.latched := rfl
@[simp] theorem State.setShape_held (l : LaneBuf) (w n : Nat) (c : PlaneWord) :
    (s.setShape l w n c).held = s.held := rfl
@[simp] theorem State.setShape_inbox (l : LaneBuf) (w n : Nat) (c : PlaneWord) :
    (s.setShape l w n c).inbox = s.inbox := rfl
@[simp] theorem State.setShape_outbox (l : LaneBuf) (w n : Nat) (c : PlaneWord) :
    (s.setShape l w n c).outbox = s.outbox := rfl

@[simp] theorem State.respond_params (x : Word) : (s.respond x).params = s.params := rfl
@[simp] theorem State.respond_value (x : Word) : (s.respond x).value = s.value := rfl
@[simp] theorem State.respond_lane (x : Word) : (s.respond x).lane = s.lane := rfl
@[simp] theorem State.respond_erracc (x : Word) : (s.respond x).erracc = s.erracc := rfl
@[simp] theorem State.respond_phase (x : Word) : (s.respond x).phase = .resp ⟨0, x⟩ := rfl
@[simp] theorem State.respond_latched (x : Word) : (s.respond x).latched = s.latched := rfl
@[simp] theorem State.respond_held (x : Word) : (s.respond x).held = s.held := rfl
@[simp] theorem State.respond_inbox (x : Word) : (s.respond x).inbox = s.inbox := rfl
@[simp] theorem State.respond_outbox (x : Word) : (s.respond x).outbox = s.outbox := rfl

@[simp] theorem State.raise_params (e : ErrCode) : (s.raise e).params = s.params := rfl
@[simp] theorem State.raise_value (e : ErrCode) : (s.raise e).value = s.value := rfl
@[simp] theorem State.raise_lane (e : ErrCode) : (s.raise e).lane = s.lane := rfl
@[simp] theorem State.raise_erracc (e : ErrCode) : (s.raise e).erracc = accumulate s.erracc e := rfl
@[simp] theorem State.raise_phase (e : ErrCode) : (s.raise e).phase = .resp ⟨e.code, 0⟩ := rfl
@[simp] theorem State.raise_latched (e : ErrCode) : (s.raise e).latched = s.latched := rfl
@[simp] theorem State.raise_held (e : ErrCode) : (s.raise e).held = s.held := rfl
@[simp] theorem State.raise_inbox (e : ErrCode) : (s.raise e).inbox = s.inbox := rfl
@[simp] theorem State.raise_outbox (e : ErrCode) : (s.raise e).outbox = s.outbox := rfl

@[simp] theorem State.accept_params (c : Command) : (s.accept c).params = s.params := rfl
@[simp] theorem State.accept_value (c : Command) : (s.accept c).value = s.value := rfl
@[simp] theorem State.accept_lane (c : Command) : (s.accept c).lane = s.lane := rfl
@[simp] theorem State.accept_erracc (c : Command) : (s.accept c).erracc = s.erracc := rfl
@[simp] theorem State.accept_phase (c : Command) : (s.accept c).phase = .check := rfl
@[simp] theorem State.accept_latched (c : Command) : (s.accept c).latched = some c := rfl
@[simp] theorem State.accept_held (c : Command) : (s.accept c).held = none := rfl
@[simp] theorem State.accept_inbox (c : Command) : (s.accept c).inbox = s.inbox := rfl
@[simp] theorem State.accept_outbox (c : Command) : (s.accept c).outbox = s.outbox := rfl

@[simp] theorem State.holdOffer_params (p : Pins) : (s.holdOffer p).params = s.params := rfl
@[simp] theorem State.holdOffer_value (p : Pins) : (s.holdOffer p).value = s.value := rfl
@[simp] theorem State.holdOffer_lane (p : Pins) : (s.holdOffer p).lane = s.lane := rfl
@[simp] theorem State.holdOffer_erracc (p : Pins) : (s.holdOffer p).erracc = s.erracc := rfl
@[simp] theorem State.holdOffer_phase (p : Pins) : (s.holdOffer p).phase = s.phase := rfl
@[simp] theorem State.holdOffer_latched (p : Pins) : (s.holdOffer p).latched = s.latched := rfl
@[simp] theorem State.holdOffer_held (p : Pins) : (s.holdOffer p).held = p.offer := rfl
@[simp] theorem State.holdOffer_inbox (p : Pins) : (s.holdOffer p).inbox = s.inbox := rfl
@[simp] theorem State.holdOffer_outbox (p : Pins) : (s.holdOffer p).outbox = s.outbox := rfl

@[simp] theorem State.resetBlock_params : s.resetBlock.params = s.params := rfl
@[simp] theorem State.resetBlock_value : s.resetBlock.value = State.reset.value := rfl
@[simp] theorem State.resetBlock_lane : s.resetBlock.lane = State.reset.lane := rfl
@[simp] theorem State.resetBlock_erracc : s.resetBlock.erracc = State.reset.erracc := rfl
@[simp] theorem State.resetBlock_phase : s.resetBlock.phase = State.reset.phase := rfl
@[simp] theorem State.resetBlock_latched : s.resetBlock.latched = State.reset.latched := rfl
@[simp] theorem State.resetBlock_held : s.resetBlock.held = s.held := rfl
@[simp] theorem State.resetBlock_inbox : s.resetBlock.inbox = s.inbox := rfl
@[simp] theorem State.resetBlock_outbox : s.resetBlock.outbox = s.outbox := rfl

end Sys2Proof.Machine
end

