-- ==== Sys2Proof/Laws/Encoding.lean ====
section
/-! SUPPORT. The fields of an encoded command word read back (30_encoding.md R50), the numbers of the
opcodes (R51), and the values of the fixed parameters (00_scope.md R8). -/

namespace Sys2Proof

/-! ### The fixed parameters, for arithmetic -/

theorem Config.C_eq : Config.C = 32 := rfl
theorem Config.WMAX_eq : Config.WMAX = 32 := rfl
theorem Config.NV_eq : Config.NV = 4 := rfl
theorem Config.NL_eq : Config.NL = 4 := rfl

/-! ### Reading a field of a packed word -/

section
variable (op : BitVec 4) (d s1 s2 : BitVec 2) (w n : BitVec 6) (t : BitVec 1) (idx : BitVec 6)

@[simp] theorem fieldOP_packFields : fieldOP (packFields op d s1 s2 w n t idx) = op := by
  apply BitVec.eq_of_getLsbD_eq; intro i hi
  simp only [fieldOP, packFields, BitVec.getLsbD_extractLsb', BitVec.getLsbD_append]
  interval_cases i <;> simp

@[simp] theorem fieldD_packFields : fieldD (packFields op d s1 s2 w n t idx) = d.toFin := by
  have : (packFields op d s1 s2 w n t idx).extractLsb' 26 2 = d := by
    apply BitVec.eq_of_getLsbD_eq; intro i hi
    simp only [packFields, BitVec.getLsbD_extractLsb', BitVec.getLsbD_append]
    interval_cases i <;> simp
  simp only [fieldD, this]

@[simp] theorem fieldS1_packFields : fieldS1 (packFields op d s1 s2 w n t idx) = s1.toFin := by
  have : (packFields op d s1 s2 w n t idx).extractLsb' 24 2 = s1 := by
    apply BitVec.eq_of_getLsbD_eq; intro i hi
    simp only [packFields, BitVec.getLsbD_extractLsb', BitVec.getLsbD_append]
    interval_cases i <;> simp
  simp only [fieldS1, this]

@[simp] theorem fieldS2_packFields : fieldS2 (packFields op d s1 s2 w n t idx) = s2.toFin := by
  have : (packFields op d s1 s2 w n t idx).extractLsb' 22 2 = s2 := by
    apply BitVec.eq_of_getLsbD_eq; intro i hi
    simp only [packFields, BitVec.getLsbD_extractLsb', BitVec.getLsbD_append]
    interval_cases i <;> simp
  simp only [fieldS2, this]

@[simp] theorem fieldW_packFields : fieldW (packFields op d s1 s2 w n t idx) = w.toNat := by
  have : (packFields op d s1 s2 w n t idx).extractLsb' 16 6 = w := by
    apply BitVec.eq_of_getLsbD_eq; intro i hi
    simp only [packFields, BitVec.getLsbD_extractLsb', BitVec.getLsbD_append]
    interval_cases i <;> simp
  simp only [fieldW, this]

@[simp] theorem fieldN_packFields : fieldN (packFields op d s1 s2 w n t idx) = n.toNat := by
  have : (packFields op d s1 s2 w n t idx).extractLsb' 10 6 = n := by
    apply BitVec.eq_of_getLsbD_eq; intro i hi
    simp only [packFields, BitVec.getLsbD_extractLsb', BitVec.getLsbD_append]
    interval_cases i <;> simp
  simp only [fieldN, this]

@[simp] theorem fieldIDX_packFields : fieldIDX (packFields op d s1 s2 w n t idx) = idx.toNat := by
  have : (packFields op d s1 s2 w n t idx).extractLsb' 0 6 = idx := by
    apply BitVec.eq_of_getLsbD_eq; intro i hi
    simp only [packFields, BitVec.getLsbD_extractLsb', BitVec.getLsbD_append]
    interval_cases i <;> simp
  simp only [fieldIDX, this]

@[simp] theorem fieldT_packFields : fieldT (packFields op d s1 s2 w n t idx) = t.getLsbD 0 := by
  simp only [fieldT, packFields, BitVec.getLsbD_append]; simp

end

/-! ### Opcode numbers and buffer bits -/

theorem opcodeOf_number (op : Opcode) : opcodeOf op.number = some op := by cases op <;> rfl

/-- A value of OP names at most the opcode of that number. -/
theorem eq_number_of_opcodeOf {b : BitVec 4} {op : Opcode} (h : opcodeOf b = some op) :
    b = op.number := by
  have all : ∀ (b : BitVec 4) (op : Opcode), opcodeOf b = some op → b = op.number := by
    decide
  exact all b op h

theorem bufferBits_toFin (x : BitVec 2) : bufferBits x.toFin = x := by
  revert x; decide

theorem toFin_bufferBits (b : Fin 4) : (bufferBits b).toFin = b := by revert b; decide

/-- A word packed with an opcode's number is read back as that opcode. -/
theorem fieldOP_opcodeOf_packed (op : Opcode) (d s1 s2 : BitVec 2) (w n : BitVec 6) (t : BitVec 1)
    (x : BitVec 6) :
    fieldOP (packFields op.number d s1 s2 w n t x) = op.number ∧
      opcodeOf (fieldOP (packFields op.number d s1 s2 w n t x)) = some op := by
  rw [fieldOP_packFields]
  exact ⟨rfl, opcodeOf_number op⟩

/-- The opcode of what a row spells is the row's. -/
theorem opcode_assemble (op : Opcode) (cmd data : Word) : (op.assemble cmd data).opcode = op := by
  cases op <;> rfl

end Sys2Proof
end

