-- ==== Sys2Proof/Laws/Ops.lean ====
section
/-! SUPPORT. One lemma per shared operation that says what it can do: the reads after the writes, the bit
form of the word operations, the checks, and how a command completes. -/

namespace Sys2Proof.Machine

open Sys2Proof.Config (C WMAX NV NL)

/-! ### Reads after writes -/

variable (s : State)

theorem State.entry_of_lt (v : ValueBuf) {i : Nat} (h : i < C) : s.entry v i = (s.value[v])[i] := by
  simp [State.entry, h]

theorem State.plane_of_lt (l : LaneBuf) {p : Nat} (h : p < WMAX) :
    s.plane l p = (s.lane[l]).planes[p] := by
  simp [State.plane, h]

theorem State.value_setValues_get (v v' : ValueBuf) (b : Vector Word C) :
    (s.setValues v b).value[v'] = if v' = v then b else s.value[v'] := by
  by_cases h : v' = v
  · subst h; simp
  · have : v.val ≠ v'.val := fun e => h (Fin.ext e.symm)
    simp [h, this]

theorem State.lane_setLane_get (l l' : LaneBuf) (b : LaneBuffer) :
    (s.setLane l b).lane[l'] = if l' = l then b else s.lane[l'] := by
  by_cases h : l' = l
  · subst h; simp
  · have : l.val ≠ l'.val := fun e => h (Fin.ext e.symm)
    simp [h, this]

/-- Reading an entry after writing one. -/
theorem State.entry_setEntry (v v' : ValueBuf) (i j : Nat) (x : Word) :
    (s.setEntry v i x).entry v' j = if v' = v ∧ j = i ∧ i < C then x else s.entry v' j := by
  unfold State.entry State.setEntry
  rw [State.value_setValues_get]
  by_cases h : v' = v
  · subst h
    by_cases h2 : i = j
    · subst h2
      by_cases h3 : i < C <;> simp [h3]
    · simp [h2, Ne.symm h2]
  · simp [h]

/-- Reading a plane after writing one. -/
theorem State.plane_setPlane (l l' : LaneBuf) (p q : Nat) (x : PlaneWord) :
    (s.setPlane l p x).plane l' q = if l' = l ∧ q = p ∧ p < WMAX then x else s.plane l' q := by
  unfold State.plane State.setPlane
  rw [State.lane_setLane_get]
  by_cases h : l' = l
  · subst h
    by_cases h2 : p = q
    · subst h2
      by_cases h3 : p < WMAX <;> simp [h3]
    · simp [h2, Ne.symm h2]
  · simp [h]

@[simp] theorem State.tag_setPlane (l l' : LaneBuf) (p : Nat) (x : PlaneWord) :
    (s.setPlane l p x).tag l' = s.tag l' := by
  unfold State.tag State.setPlane
  rw [State.lane_setLane_get]
  split <;> simp_all

@[simp] theorem State.carry_setPlane (l l' : LaneBuf) (p : Nat) (x : PlaneWord) :
    (s.setPlane l p x).carry l' = s.carry l' := by
  unfold State.carry State.setPlane
  rw [State.lane_setLane_get]
  split <;> simp_all

@[simp] theorem State.entry_setPlane (l : LaneBuf) (p : Nat) (x : PlaneWord) (v : ValueBuf) (i : Nat) :
    (s.setPlane l p x).entry v i = s.entry v i := rfl

@[simp] theorem State.plane_setEntry (v : ValueBuf) (i : Nat) (x : Word) (l : LaneBuf) (p : Nat) :
    (s.setEntry v i x).plane l p = s.plane l p := rfl

@[simp] theorem State.tag_setEntry (v : ValueBuf) (i : Nat) (x : Word) (l : LaneBuf) :
    (s.setEntry v i x).tag l = s.tag l := rfl

/-- The planes of ENCODE's and ADD's destination. -/
theorem laneImage_planes_getElem (f : Nat → PlaneWord) (w n : Nat) (c : PlaneWord) {p : Nat}
    (h : p < WMAX) : (laneImage f w n c).planes[p] = if p < w then f p else 0 := by
  simp [laneImage]

/-- The entries of DECODE's destination. -/
theorem valueImage_getElem (f : Nat → Word) (n : Nat) {i : Nat} (h : i < C) :
    (valueImage f n)[i] = if i < n then f i else 0 := by
  simp [valueImage]

@[simp] theorem laneImage_tag (f : Nat → PlaneWord) (w n : Nat) (c : PlaneWord) :
    (laneImage f w n c).tag = Tag.ofShape w n := rfl

@[simp] theorem laneImage_carry (f : Nat → PlaneWord) (w n : Nat) (c : PlaneWord) :
    (laneImage f w n c).carry = c := rfl

/-! ### Bits of the word operations -/

theorem anyBelow_iff {n : Nat} {f : Nat → Bool} : anyBelow n f = true ↔ ∃ i, i < n ∧ f i = true := by
  induction n with
  | zero => simp [anyBelow]
  | succ n ih =>
    simp only [anyBelow, Bool.or_eq_true, ih]
    constructor
    · rintro (⟨i, hi, h⟩ | h)
      · exact ⟨i, by omega, h⟩
      · exact ⟨n, by omega, h⟩
    · rintro ⟨i, hi, h⟩
      rcases Nat.lt_succ_iff_lt_or_eq.mp hi with h' | rfl
      · exact .inl ⟨i, h', h⟩
      · exact .inr h

theorem orOver_getLsbD (n : Nat) (f : Nat → Word) (k : Nat) :
    (orOver n f).getLsbD k = anyBelow n fun i => (f i).getLsbD k := by
  induction n with
  | zero => simp [orOver, anyBelow]
  | succ n ih => simp [orOver, anyBelow, ih]

/-- R13: the bits of a lane mask. -/
theorem laneMask_getLsbD (n k : Nat) : (laneMask n).getLsbD k = (decide (k < 32) && decide (k < n)) := by
  by_cases hn : n < 32
  · have : laneMask n = BitVec.ofNat 32 (2 ^ n - 1) := by
      apply BitVec.eq_of_toNat_eq
      have h1 : 2 ^ n < 2 ^ 32 := Nat.pow_lt_pow_right (by decide) hn
      have h2 : 0 < 2 ^ n := Nat.two_pow_pos n
      simp only [laneMask, BitVec.toNat_sub, BitVec.toNat_shiftLeft, BitVec.toNat_ofNat,
        Nat.shiftLeft_eq, BitVec.ofNat_eq_ofNat]
      omega
    rw [this, BitVec.getLsbD_ofNat, Nat.testBit_two_pow_sub_one]
  · have h0 : (1 : PlaneWord) <<< n = 0 := by
      apply BitVec.eq_of_getLsbD_eq
      intro i hi
      simp [BitVec.getLsbD_shiftLeft]
      omega
    have : laneMask n = BitVec.allOnes 32 := by
      simp only [laneMask, h0]; decide
    rw [this, BitVec.getLsbD_allOnes]
    by_cases hk : k < 32
    · simp [hk]; omega
    · simp [hk]

theorem getLsbD_one_word (k : Nat) : (1 : Word).getLsbD k = decide (k = 0) := by
  rw [show (1 : Word) = BitVec.ofNat 32 1 from rfl, BitVec.getLsbD_ofNat]
  by_cases h : k = 0
  · subst h; decide
  · obtain ⟨j, rfl⟩ := Nat.exists_eq_succ_of_ne_zero h
    simp [Nat.testBit_succ]

/-- Bit `k` of one term of R65 and R66. -/
theorem bitTerm_getLsbD (x : Word) (b i k : Nat) :
    (((x >>> b) &&& 1) <<< i).getLsbD k = (decide (k < 32) && decide (k = i) && x.getLsbD b) := by
  simp only [BitVec.getLsbD_shiftLeft, BitVec.getLsbD_and, BitVec.getLsbD_ushiftRight,
    getLsbD_one_word]
  by_cases h : k < 32 <;> by_cases h2 : k = i
  · subst h2; simp [h]
  · by_cases h3 : k < i
    · simp [h, h2, h3]
    · simp [h, h2, h3]; omega
  · simp [h]
  · simp [h]

theorem anyBelow_eq_single (n k : Nat) (f : Nat → Bool) :
    (anyBelow n fun i => decide (k = i) && f i) = (decide (k < n) && f k) := by
  rw [Bool.eq_iff_iff, anyBelow_iff]
  simp only [Bool.and_eq_true, decide_eq_true_eq]
  constructor
  · rintro ⟨i, hi, rfl, h⟩; exact ⟨hi, h⟩
  · rintro ⟨hi, h⟩; exact ⟨k, hi, rfl, h⟩

/-- R65: bit `i` of plane `b` is bit `b` of entry `i`, for i < N. -/
theorem toLane_getLsbD (vals : Nat → Word) (n b : Nat) {i : Nat} (h : i < 32) :
    (toLane vals n b).getLsbD i = (decide (i < n) && (vals i).getLsbD b) := by
  simp only [toLane, orOver_getLsbD, bitTerm_getLsbD, h, decide_true, Bool.true_and]
  rw [anyBelow_eq_single]

/-- R66: bit `b` of entry `i` is bit `i` of plane `b`, for b < W. -/
theorem toValue_getLsbD (planes : Nat → PlaneWord) (w i : Nat) {b : Nat} (h : b < 32) :
    (toValue planes w i).getLsbD b = (decide (b < w) && (planes b).getLsbD i) := by
  simp only [toValue, orOver_getLsbD, bitTerm_getLsbD, h, decide_true, Bool.true_and]
  rw [anyBelow_eq_single w b fun i' => (planes i').getLsbD i]

/-- R69: the range predicate. -/
theorem outOfRange_iff (vals : Nat → Word) (w n : Nat) :
    outOfRange vals w n = true ↔ ∃ i, i < n ∧ 2 ^ w ≤ (vals i).toNat := by
  simp only [outOfRange, anyBelow_iff, bne_iff_ne]
  refine exists_congr fun i => and_congr_right fun _ => ?_
  rw [Ne, ← BitVec.toNat_inj, BitVec.toNat_ushiftRight, Nat.shiftRight_eq_div_pow]
  simp [Nat.div_eq_zero_iff]

/-- The bits of ERRACC after an error is accounted for (R121). -/
theorem accumulate_getLsbD (acc : BitVec 16) (e : ErrCode) {k : Nat} (h : k < 16) :
    (accumulate acc e).getLsbD k = (acc.getLsbD k || k == e.code.toNat) := by
  simp only [accumulate, BitVec.getLsbD_or]
  congr 1
  cases e <;> simp only [ErrCode.code] <;> interval_cases k <;> decide

/-! ### Checks -/

theorem checkIndex_of_lt {idx bound : Nat} (h : idx < bound) : checkIndex idx bound = none := by
  simp [checkIndex, h]

theorem checkIndex_of_le {idx bound : Nat} (h : bound ≤ idx) : checkIndex idx bound = some .index := by
  simp [checkIndex, h]

/-- R122: CAPACITY, then WIDTH. -/
theorem checkShape_cases (params : Params) (w n : Nat) :
    (C < n ∧ checkShape params w n = some .capacity) ∨
    (n ≤ C ∧ w ∉ params.widthSet ∧ checkShape params w n = some .width) ∨
    (n ≤ C ∧ w ∈ params.widthSet ∧ checkShape params w n = none) := by
  unfold checkShape
  by_cases h : C < n
  · simp [h]
  · by_cases h2 : w ∈ params.widthSet <;> simp [h, h2] <;> omega

/-- R70, R122: CAPACITY, WIDTH, RANGE. -/
theorem encodeCheck_cases (v : ValueBuf) (w n : Nat) (x : Bool) :
    (C < n ∧ encodeCheck s v w n x = some .capacity) ∨
    (n ≤ C ∧ w ∉ s.params.widthSet ∧ encodeCheck s v w n x = some .width) ∨
    (n ≤ C ∧ w ∈ s.params.widthSet ∧ x = false ∧ (∃ i, i < n ∧ 2 ^ w ≤ (s.entry v i).toNat) ∧
      encodeCheck s v w n x = some .range) ∨
    (n ≤ C ∧ w ∈ s.params.widthSet ∧ (x = false → ∀ i, i < n → (s.entry v i).toNat < 2 ^ w) ∧
      encodeCheck s v w n x = none) := by
  rcases checkShape_cases s.params w n with ⟨h, e⟩ | ⟨h, h2, e⟩ | ⟨h, h2, e⟩
  · exact .inl ⟨h, by simp [encodeCheck, e]⟩
  · exact .inr (.inl ⟨h, h2, by simp [encodeCheck, e]⟩)
  · by_cases ho : outOfRange (s.entry v) w n = true
    · cases x
      · exact .inr (.inr (.inl ⟨h, h2, rfl, (outOfRange_iff _ _ _).1 ho, by simp [encodeCheck, e, ho]⟩))
      · exact .inr (.inr (.inr ⟨h, h2, by simp, by simp [encodeCheck, e]⟩))
    · refine .inr (.inr (.inr ⟨h, h2, fun _ i hi => ?_, by simp [encodeCheck, e, ho]⟩))
      by_contra hc
      exact ho ((outOfRange_iff _ _ _).2 ⟨i, hi, by omega⟩)

/-- R82, R122: UNINIT, ALIAS, SHAPE. -/
theorem addCheck_cases (d a b : LaneBuf) :
    (((s.tag a).valid = false ∨ (s.tag b).valid = false) ∧ addCheck s d a b = some .uninit) ∨
    ((s.tag a).valid = true ∧ (s.tag b).valid = true ∧ (d = a ∨ d = b) ∧
      addCheck s d a b = some .aliasing) ∨
    ((s.tag a).valid = true ∧ (s.tag b).valid = true ∧ d ≠ a ∧ d ≠ b ∧
      ((s.tag a).w ≠ (s.tag b).w ∨ (s.tag a).n ≠ (s.tag b).n) ∧ addCheck s d a b = some .shape) ∨
    ((s.tag a).valid = true ∧ s.tag b = s.tag a ∧ d ≠ a ∧ d ≠ b ∧ addCheck s d a b = none) := by
  unfold addCheck
  by_cases h1 : (s.tag a).valid = false ∨ (s.tag b).valid = false
  · exact .inl ⟨h1, if_pos h1⟩
  rw [if_neg h1]
  have ha : (s.tag a).valid = true := by simpa using fun h => h1 (.inl h)
  have hb : (s.tag b).valid = true := by simpa using fun h => h1 (.inr h)
  by_cases h2 : d = a ∨ d = b
  · exact .inr (.inl ⟨ha, hb, h2, if_pos h2⟩)
  rw [if_neg h2]
  have hda : d ≠ a := fun h => h2 (.inl h)
  have hdb : d ≠ b := fun h => h2 (.inr h)
  by_cases h3 : (s.tag a).w ≠ (s.tag b).w ∨ (s.tag a).n ≠ (s.tag b).n
  · exact .inr (.inr (.inl ⟨ha, hb, hda, hdb, h3, if_pos h3⟩))
  rw [if_neg h3]
  have hw : (s.tag b).w = (s.tag a).w := by by_contra h; exact h3 (.inl (Ne.symm h))
  have hn : (s.tag b).n = (s.tag a).n := by by_contra h; exact h3 (.inr (Ne.symm h))
  exact .inr (.inr (.inr ⟨ha, by
    rcases h : s.tag a with ⟨av, aw, an⟩
    rcases h' : s.tag b with ⟨bv, bw, bn⟩
    simp_all, hda, hdb, rfl⟩))

/-! ### How a command completes -/

@[simp] theorem andThen_next (t : State) (f : State → StepResult) : andThen (.next t) f = f t := rfl

theorem andThen_eq_next {o : StepResult} {f : State → StepResult} {u : State} :
    andThen o f = .next u ↔ ∃ t, o = .next t ∧ f t = .next u := by
  cases o <;> simp [andThen]

theorem guarded_eq_next {err : Option ErrCode} {done t : State} :
    guarded err s done = .next t ↔
      (∃ e, err = some e ∧ t = s.raise e) ∨ (err = none ∧ t = done) := by
  cases err <;> simp [guarded, eq_comm]

@[simp] theorem guarded_none (done : State) : guarded none s done = .next done := rfl

@[simp] theorem guarded_some (e : ErrCode) (done : State) :
    guarded (some e) s done = .next (s.raise e) := rfl

/-- The response of a state in RESP is taken: IDLE, an empty latch, and the host has it (R146). -/
theorem State.takeResponse_of_resp {r : Response} (h : s.phase = .resp r) (hr : r.err.toNat ≤ 8) :
    s.takeResponse = .next { s with phase := .idle, latched := none, outbox := s.outbox ++ [r] } := by
  simp [State.takeResponse, h, hr]

theorem ErrCode.code_toNat_le (e : ErrCode) : e.code.toNat ≤ 8 := by cases e <;> decide

theorem ErrCode.code_injective {e f : ErrCode} (h : e.code = f.code) : e = f := by
  revert h; cases e <;> cases f <;> decide

/-- R53: what the decoder answers with. -/
theorem decodeCommand_eq_ok {cmd data : Word} {i : Instr} :
    decodeCommand cmd data = .ok i ↔
      ∃ op, opcodeOf (fieldOP cmd) = some op ∧ cmd &&& op.maskWord = op.matchWord ∧
        i = op.assemble cmd data := by
  unfold decodeCommand
  cases opcodeOf (fieldOP cmd) with
  | none => simp
  | some op =>
    by_cases h : cmd &&& op.maskWord = op.matchWord <;> simp [h, eq_comm]

end Sys2Proof.Machine
end

