-- ==== Sys2Proof/Laws/PerInstr.lean ====
section
/-! SUPPORT. The per-instruction families of LAWS.json. -/

/-! OpcodeField: the OP field of a command's word is the number R51 gives its mnemonic, and the opcode map
reads that number back as the command's own opcode. -/

def Sys2Proof.Laws.OpcodeField.Statement (i : Sys2Proof.Instr) : Prop :=
  Sys2Proof.fieldOP (Sys2Proof.encodeWord i) = i.opcode.number ∧
    Sys2Proof.opcodeOf (Sys2Proof.fieldOP (Sys2Proof.encodeWord i)) = some i.opcode

namespace Sys2Proof.Laws.OpcodeField

theorem nop : Statement .nop := fieldOP_opcodeOf_packed ..
theorem wval (d : ValueBuf) (idx : Nat) (data : Word) : Statement (.wval d idx data) :=
  fieldOP_opcodeOf_packed ..
theorem rval (s : ValueBuf) (idx : Nat) : Statement (.rval s idx) := fieldOP_opcodeOf_packed ..
theorem wplane (d : LaneBuf) (p : Nat) (data : Word) : Statement (.wplane d p data) :=
  fieldOP_opcodeOf_packed ..
theorem rplane (s : LaneBuf) (p : Nat) : Statement (.rplane s p) := fieldOP_opcodeOf_packed ..
theorem lshape (d : LaneBuf) (w n : Nat) : Statement (.lshape d w n) := fieldOP_opcodeOf_packed ..
theorem rtag (s : LaneBuf) : Statement (.rtag s) := fieldOP_opcodeOf_packed ..
theorem encode (d : LaneBuf) (s : ValueBuf) (w n : Nat) (t : Bool) : Statement (.encode d s w n t) :=
  fieldOP_opcodeOf_packed ..
theorem decode (d : ValueBuf) (s : LaneBuf) : Statement (.decode d s) := fieldOP_opcodeOf_packed ..
theorem add (d a b : LaneBuf) : Statement (.add d a b) := fieldOP_opcodeOf_packed ..
theorem rcarry (s : LaneBuf) : Statement (.rcarry s) := fieldOP_opcodeOf_packed ..
theorem rstat : Statement .rstat := fieldOP_opcodeOf_packed ..
theorem clrstat : Statement .clrstat := fieldOP_opcodeOf_packed ..
theorem rdcfg : Statement .rdcfg := fieldOP_opcodeOf_packed ..

end Sys2Proof.Laws.OpcodeField
end

