-- ==== Sys2Proof/Tests/Slice0.lean ====
section
/-! SUPPORT. Tests on fixed values taken from the spec (the vectors of 95_test_vectors.md, the examples of
the instruction rules), and for every statement with hypotheses a witness that meets them all. -/

namespace Sys2Proof.Tests

open Sys2Proof.Machine
open Sys2Proof.Config (C WMAX)

/-! ### Helpers -/

/-- A value buffer whose first entries are listed. -/
def values (xs : List Word) : Vector Word C := Vector.ofFn fun i => xs.getD i.val 0

/-- A lane buffer of shape {1, w, n} whose first planes are listed. -/
def lanes (planes : List Word) (w n : Nat) (carry : Word) : LaneBuffer :=
  ⟨Vector.ofFn fun p => planes.getD p.val 0, Tag.ofShape w n, carry⟩

/-- What `f` reads in the next state, if there is one. -/
def after {α : Type} (o : StepResult) (f : State → α) : Option α :=
  match o with
  | .next t => some (f t)
  | _ => none

/-- The pending response of a state. -/
def pending (s : State) : Option Response :=
  match s.phase with
  | .resp r => some r
  | _ => none

/-- A state in IDLE in which vector E1 of 95_test_vectors.md has run: V0 = [1, 2, 3, 4], L1 its encoding
at W = 8, N = 4. L0 holds [255, 3, 0, 1] at the same shape; L2 and L3 have no shape. -/
def demo : State :=
  ((State.reset.setValues 0 (values [1, 2, 3, 4])).setLane 1 (lanes [5, 6, 8] 8 4 0)).setLane 0
    (lanes [11, 3, 1, 1, 1, 1, 1, 1] 8 4 0)

/-! ### Well-formedness refuses an ill-formed term for each check -/

theorem test_wf_wval_idx : (Instr.wval 0 64 0).wellFormed = false := by decide
theorem test_wf_rval_idx : (Instr.rval 0 64).wellFormed = false := by decide
theorem test_wf_wplane_p : (Instr.wplane 0 64 0).wellFormed = false := by decide
theorem test_wf_rplane_p : (Instr.rplane 0 64).wellFormed = false := by decide
theorem test_wf_lshape_w : (Instr.lshape 0 64 0).wellFormed = false := by decide
theorem test_wf_lshape_n : (Instr.lshape 0 8 64).wellFormed = false := by decide
theorem test_wf_encode_w : (Instr.encode 0 0 64 0 false).wellFormed = false := by decide
theorem test_wf_encode_n : (Instr.encode 0 0 8 64 true).wellFormed = false := by decide
theorem test_wf_illegal_shape_is_well_formed : (Instr.encode 0 0 0 33 false).wellFormed = true := by
  decide
theorem test_params_default : Params.default.wellFormed = true := by decide
theorem test_params_smallest : (Params.mk [8, 16, 32]).wellFormed = true := by decide
theorem test_params_without_8 : (Params.mk [16, 32]).wellFormed = false := by decide
theorem test_params_without_16 : (Params.mk [8, 32]).wellFormed = false := by decide
theorem test_params_without_32 : (Params.mk [8, 16]).wellFormed = false := by decide
theorem test_params_with_0 : (Params.mk [0, 8, 16, 32]).wellFormed = false := by decide
theorem test_params_above_wmax : (Params.mk [8, 16, 32, 33]).wellFormed = false := by decide
theorem test_wf_vload_empty : (Pseudo.vload 0 []).wellFormed = false := by decide
theorem test_wf_vload_long : (Pseudo.vload 0 (List.replicate 33 0)).wellFormed = false := by decide
theorem test_wf_vread_long : (Pseudo.vread 0 65).wellFormed = false := by decide
theorem test_wf_lzero_w : (Pseudo.lzero 0 64 0).wellFormed = false := by decide
theorem test_wf_lzero_n : (Pseudo.lzero 0 8 64).wellFormed = false := by decide
theorem test_wf_addv_w : (Pseudo.addv 0 1 2 64 0).wellFormed = false := by decide
theorem test_wf_addv_n : (Pseudo.addv 0 1 2 8 64).wellFormed = false := by decide

/-! ### Decoding: one word for every constructor, from the examples of R62, R70, R71, R82, R90 to R103 -/

theorem test_decode_nop : decodeCommand 0x00000000 9 = .ok .nop := by decide
theorem test_decode_wval : decodeCommand 0x18000005 7 = .ok (.wval 2 5 7) := by decide
theorem test_decode_rval : decodeCommand 0x22000005 0 = .ok (.rval 2 5) := by decide
theorem test_decode_wplane :
    decodeCommand 0x3C00001F 0x80000001 = .ok (.wplane 3 31 0x80000001) := by decide
theorem test_decode_rplane : decodeCommand 0x41000001 0 = .ok (.rplane 1 1) := by decide
theorem test_decode_lshape : decodeCommand 0x54108000 0 = .ok (.lshape 1 16 32) := by decide
theorem test_decode_rtag : decodeCommand 0x61000000 0 = .ok (.rtag 1) := by decide
theorem test_decode_encode : decodeCommand 0x74081000 0 = .ok (.encode 1 0 8 4 false) := by decide
theorem test_decode_encode_t : decodeCommand 0x7F080600 0 = .ok (.encode 3 3 8 1 true) := by decide
theorem test_decode_decode : decodeCommand 0x8E000000 0 = .ok (.decode 3 2) := by decide
theorem test_decode_add : decodeCommand 0x92C00000 0 = .ok (.add 0 2 3) := by decide
theorem test_decode_rcarry : decodeCommand 0xA2000000 0 = .ok (.rcarry 2) := by decide
theorem test_decode_rstat : decodeCommand 0xB0000000 0 = .ok .rstat := by decide
theorem test_decode_clrstat : decodeCommand 0xC0000000 0 = .ok .clrstat := by decide
theorem test_decode_rdcfg : decodeCommand 0xD0000000 0 = .ok .rdcfg := by decide
/-- Vectors K2 to K5, K10, A18 and B16 are ILLEGAL. -/
theorem test_decode_refused :
    decodeCommand 0xE0000000 0 = .error .reservedOpcode ∧
    decodeCommand 0xF0000000 0 = .error .reservedOpcode ∧
    decodeCommand 0x00000001 0 = .error .unusedFieldSet ∧
    decodeCommand 0x00000040 0 = .error .unusedFieldSet ∧
    decodeCommand 0xC0000001 0 = .error .unusedFieldSet ∧
    decodeCommand 0x92000001 0 = .error .unusedFieldSet ∧
    decodeCommand 0x10000040 0 = .error .unusedFieldSet := by decide
/-- Words of program P4, written by the encoder. -/
theorem test_encode_words :
    encodeWord (.encode 1 3 32 2 false) = 0x77200800 ∧ encodeWord (.lshape 3 32 2) = 0x5C200800 ∧
    encodeWord (.add 0 2 3) = 0x92C00000 ∧ encodeWord (.decode 1 0) = 0x84000000 := by decide
theorem test_table_word : decodeTableWord 32 0x98400000 = some (.add 2 0 1) := by decide
theorem test_table_word_data : decodeTableWord 64 0x0000000718000005 = some (.wval 2 5 7) := by decide
theorem test_table_word_illegal : decodeTableWord 32 0xE0000000 = none := by decide

/-! ### One step of each command -/

/-- K1, and R32: a whole command from IDLE to IDLE. -/
theorem test_step_nop :
    after (step (State.reset.withFetchWord 32 0)) (fun t => (t.phase, t.outbox)) =
      some (.idle, [⟨0, 0⟩]) := by decide
/-- B1. -/
theorem test_wval : after (exec (.wval 0 31 1) demo) (fun t => (t.entry 0 31, pending t)) =
    some (1, some ⟨0, 0⟩) := by decide
/-- B2. -/
theorem test_wval_index : after (exec (.wval 0 32 1) demo) (fun t => (pending t, t.erracc)) =
    some (some ⟨7, 0⟩, 0x80) := by decide
/-- R22, E1: entry 3 of V0. -/
theorem test_rval : after (exec (.rval 0 3) demo) pending = some (some ⟨0, 4⟩) := by decide
/-- B4. -/
theorem test_rval_index : after (exec (.rval 0 32) demo) pending = some (some ⟨7, 0⟩) := by decide
/-- B5. -/
theorem test_wplane : after (exec (.wplane 1 31 1) demo) (fun t => (t.plane 1 31, t.tag 1)) =
    some (1, ⟨true, 8, 4⟩) := by decide
/-- B6. -/
theorem test_wplane_index : after (exec (.wplane 0 32 1) demo) pending = some (some ⟨7, 0⟩) := by decide
/-- B7. -/
theorem test_rplane : after (exec (.rplane 1 1) demo) pending = some (some ⟨0, 6⟩) := by decide
/-- B8. -/
theorem test_rplane_index : after (exec (.rplane 0 40) demo) pending = some (some ⟨7, 0⟩) := by decide
/-- B9. -/
theorem test_lshape : after (exec (.lshape 0 32 32) demo) (fun t => (t.tag 0, t.carry 0)) =
    some (⟨true, 32, 32⟩, 0) := by decide
/-- B10, B11. -/
theorem test_lshape_errors :
    after (exec (.lshape 0 8 33) demo) pending = some (some ⟨2, 0⟩) ∧
    after (exec (.lshape 0 0 32) demo) pending = some (some ⟨5, 0⟩) := by decide
/-- B12, B13. -/
theorem test_rtag :
    after (exec (.rtag 1) demo) pending = some (some ⟨0, 0x80081000⟩) ∧
    after (exec (.rtag 2) demo) pending = some (some ⟨0, 0⟩) := by decide
/-- E1: planes, tag and carry of the destination. -/
theorem test_encode : after (exec (.encode 3 0 8 4 false) demo)
    (fun t => (t.plane 3 0, t.plane 3 1, t.plane 3 2, t.plane 3 3, t.tag 3, t.carry 3)) =
      some (5, 6, 8, 0, ⟨true, 8, 4⟩, 0) := by decide
/-- E10, E11: one bit too many at W = 1, refused or cut. -/
theorem test_encode_range :
    after (exec (.encode 3 0 1 2 false) demo) (fun t => (pending t, t.tag 3)) =
      some (some ⟨3, 0⟩, ⟨false, 0, 0⟩) ∧
    after (exec (.encode 3 0 1 2 true) demo) (fun t => (t.plane 3 0, t.plane 3 1, t.tag 3)) =
      some (1, 0, ⟨true, 1, 2⟩) := by decide
/-- X1. -/
theorem test_decode : after (exec (.decode 2 1) demo)
    (fun t => (t.entry 2 0, t.entry 2 1, t.entry 2 2, t.entry 2 3, t.entry 2 4)) =
      some (1, 2, 3, 4, 0) := by decide
/-- X6. -/
theorem test_decode_uninit : after (exec (.decode 0 3) demo) (fun t => (pending t, t.entry 0 0)) =
    some (some ⟨6, 0⟩, 1) := by decide
/-- R84 by hand: [1, 2, 3, 4] + [255, 3, 0, 1] at W = 8 is [0, 5, 3, 5] with lane 0 overflowing. -/
theorem test_add : after (exec (.add 2 1 0) demo)
    (fun t => (t.plane 2 0, t.plane 2 1, t.plane 2 2, t.plane 2 7, t.carry 2, t.tag 2)) =
      some (14, 4, 10, 0, 1, ⟨true, 8, 4⟩) := by decide
/-- A15, A17: ALIAS, and UNINIT before ALIAS. -/
theorem test_add_errors :
    after (exec (.add 0 0 1) demo) pending = some (some ⟨8, 0⟩) ∧
    after (exec (.add 0 0 3) demo) pending = some (some ⟨6, 0⟩) := by decide
/-- B15. -/
theorem test_rcarry : after (exec (.rcarry 2) (demo.setLane 2 (lanes [] 8 1 1))) pending =
    some (some ⟨0, 1⟩) := by decide
/-- K8. -/
theorem test_rstat : after (exec .rstat { demo with erracc := 0x14 }) pending =
    some (some ⟨0, 0x14⟩) := by decide
/-- K9. -/
theorem test_clrstat : after (exec .clrstat { demo with erracc := 0x14 })
    (fun t => (pending t, t.erracc)) = some (some ⟨0, 0⟩, 0) := by decide
/-- K6. -/
theorem test_rdcfg : after (exec .rdcfg demo) pending = some (some ⟨0, 0x5811F820⟩) := by decide
/-- U5, U11: FULLW is bit 20, and 0 where WIDTH_SET is restricted. -/
theorem test_rdcfg_restricted : after (exec .rdcfg { demo with params := ⟨[8, 16, 32]⟩ }) pending =
    some (some ⟨0, 0x5801F820⟩) := by decide
/-- K10: an ILLEGAL CLRSTAT does not clear, and sets bit 1. -/
theorem test_illegal : after (executeCommand ⟨0xC0000001, 0⟩ { demo with erracc := 0x14 })
    (fun t => (pending t, t.erracc)) = some (some ⟨1, 0⟩, 0x16) := by decide

/-! ### Assembler (R62 to R64) -/

theorem test_assemble_encode : assembleLine "ENCODE L1, V0, 8, 4 ; E1".toList =
    .command ⟨0x74081000, 0⟩ := by decide
theorem test_assemble_hex : assembleLine "WVAL V3, 0, #0x1FF".toList =
    .command ⟨0x1C000000, 0x1FF⟩ := by decide
theorem test_assemble_too_wide : assembleLine "LSHAPE L0, 64, 0".toList = .rejected := by decide
theorem test_assemble_comment : assembleLine "  ; nothing".toList = .blank := by decide
theorem test_disassemble_illegal : disassemble ⟨0xE0000000, 5⟩ = ".word 0xE0000000".toList := by decide
theorem test_disassemble_wplane :
    disassemble ⟨0x3C00001F, 16⟩ = "WPLANE L3, 31, #16".toList := by decide
theorem test_expand_addv : expandPseudo (.addv 3 0 1 8 4) =
    [.encode 0 0 8 4 false, .encode 1 1 8 4 false, .add 2 0 1, .decode 3 2] := by decide

/-! ### The clock (R150: ADD takes 1 + W edges after its acceptance) -/

theorem test_add_latency :
    after (clockRun (commandEdges ⟨0x98400000, 0⟩ 8 false) demo) (fun t => t.rspPort false) = some none ∧
    after (clockRun (commandEdges ⟨0x98400000, 0⟩ 9 false) demo) (fun t => t.rspPort false) =
      some (some ⟨0, 0⟩) := by decide

/-! ### Witnesses: for each statement with hypotheses, a state and operands that meet them all -/

/-- The demo state with one command for the host to offer. -/
def offering (c : Command) : State := { demo with inbox := [.command c] }

/-- The demo state in the fourth step of an ADD. -/
def busy : State := { demo with phase := .run 3 1, latched := some ⟨0x98400000, 0⟩ }

/-- The demo state with an error response pending. -/
def responding : State := { demo with phase := .resp ⟨6, 0⟩, latched := some ⟨0x80000000, 0⟩ }

theorem demo_legal : demo.Legal where
  params := by decide
  lanes := by simp only [LaneBuffer.Legal, Tag.Legal]; decide
  erracc := by simp only [ErrAccLegal]; decide
  quiet := ⟨rfl, rfl, rfl⟩
  responses := by intro r h; cases h

theorem witness_ResetEdgeAbandonsCommand :
    busy.offerKept ⟨true, true, 0, 0, false⟩ = true ∧ (Pins.mk true true 0 0 false).rst = true := by
  decide

theorem witness_BrokenOfferIsRefused :
    (Pins.mk false true 1 0 false).offer = some ⟨1, 0⟩ ∧ responding.cmdReady false = false ∧
      clockEdge ⟨false, true, 1, 0, false⟩ responding = .next { responding with held := some ⟨1, 0⟩ } ∧
      (Pins.mk false false 1 0 false).offer ≠ some ⟨1, 0⟩ :=
  ⟨rfl, rfl, rfl, by decide⟩

theorem witness_OfferInIdleIsLatched :
    demo.offerKept ⟨false, true, 5, 7, false⟩ = true ∧ demo.phase = .idle ∧
      (Pins.mk false true 5 7 false).offer = some ⟨5, 7⟩ := by decide

theorem witness_ResponseIsHeldUntilTaken :
    (∀ ready, responding.offerKept ⟨false, false, 0, 0, ready⟩ = true) ∧
      responding.phase = .resp ⟨6, 0⟩ ∧ Response.Legal ⟨6, 0⟩ :=
  ⟨by decide, rfl, by simp [Response.Legal]⟩

theorem witness_DecodingEncodedCommandGivesItBack :
    (Instr.encode 3 3 63 63 true).wellFormed = true ∧ (Instr.wval 3 63 5).wellFormed = true := by decide

theorem witness_EncodingDecodedWordGivesItBack :
    decodeCommand 0x7F3FFE00 9 = .ok (.encode 3 3 63 63 true) := by decide

theorem witness_UnselectedWordRaisesIllegal :
    (∀ op : Opcode, (0xE0000000 : Word) &&& op.maskWord ≠ op.matchWord) ∧
      ∀ op : Opcode, (0x10000040 : Word) &&& op.maskWord ≠ op.matchWord := by
  constructor <;> intro op <;> cases op <;> decide

theorem witness_DataWordReachesOnlyWrites_ignored :
    fieldOP 0x74081000 ≠ 1 ∧ fieldOP 0x74081000 ≠ 3 := by decide

theorem witness_DataWordReachesOnlyWrites_wval : ∃ t, executeCommand ⟨0x1000001F, 9⟩ demo = .next t ∧
    t.phase = .resp ⟨0, 0⟩ ∧ fieldOP 0x1000001F = 1 := ⟨_, rfl, by decide⟩

theorem witness_DataWordReachesOnlyWrites_wplane : ∃ t, executeCommand ⟨0x3000001F, 9⟩ demo = .next t ∧
    t.phase = .resp ⟨0, 0⟩ ∧ fieldOP 0x3000001F = 3 := ⟨_, rfl, by decide⟩

theorem witness_DataWordReachesOnlyWrites_error : ∃ t, executeCommand ⟨0x20000020, 9⟩ demo = .next t ∧
    t.phase = .resp ⟨7, 0⟩ ∧ (7 : BitVec 4) ≠ 0 := ⟨_, rfl, by decide⟩

theorem witness_DataWordReachesOnlyWrites_noRead : ∃ t, executeCommand ⟨0x89000000, 9⟩ demo = .next t ∧
    t.phase = .resp ⟨0, 0⟩ ∧ fieldOP 0x89000000 ∈ [0x0, 0x1, 0x3, 0x5, 0x7, 0x8, 0x9, 0xC] :=
  ⟨_, rfl, by decide⟩

theorem witness_StepRunsDecodedCommand :
    (offering ⟨0x98400000, 0⟩).phase = .idle ∧ (offering ⟨0x98400000, 0⟩).held = none ∧
      (offering ⟨0x98400000, 0⟩).inbox = .command ⟨0x98400000, 0⟩ :: [] ∧
      decodeCommand 0x98400000 0 = .ok (.add 2 0 1) := by decide

theorem witness_IdleBlockWaits : demo.phase = .idle ∧ demo.held = none ∧ demo.inbox = [] := by decide

theorem witness_ResetStepClears : { busy with inbox := [.reset] }.inbox = .reset :: [] := rfl

/-- The hypotheses on the state, and a command of each clause: an error, an OK, CLRSTAT. -/
theorem witness_ErrorAccounting :
    (∀ c, (offering c).Quiet ∧ (offering c).inbox = .command c :: []) ∧
    after (step (offering ⟨0x90400000, 0⟩)) State.outbox = some [⟨8, 0⟩] ∧
    after (step (offering ⟨0x98400000, 0⟩)) State.outbox = some [⟨0, 0⟩] ∧
    after (step (offering ⟨0xC0000000, 0⟩)) State.outbox = some [⟨0, 0⟩] :=
  ⟨fun _ => ⟨⟨rfl, rfl, rfl⟩, rfl⟩, by decide⟩

theorem witness_FirstApplicableErrorIsReported :
    decodeCommand 0x00000001 0 = .error .unusedFieldSet ∧
      decodeCommand 0x70008400 0 = .ok (.encode 0 0 0 33 false) := by decide

theorem witness_OnlyDestinationIsWritten : ∃ t, exec (.encode 3 0 8 4 false) demo = .next t ∧
    valueDest (.encode 3 0 8 4 false) ≠ some 0 ∧ laneDest (.encode 3 0 8 4 false) ≠ some 1 :=
  ⟨_, rfl, by decide⟩

theorem witness_TagAndCarryWriters : ∃ t, exec (.encode 3 0 8 4 false) demo = .next t ∧
    t.tag 3 ≠ demo.tag 3 ∧ (demo.tag 1).valid = true := ⟨_, rfl, by decide⟩

theorem witness_CommandsAreIdempotent : ∃ t, exec (.decode 2 1) demo = .next t := ⟨_, rfl⟩

theorem witness_ErraccCollectsResponseCodes :
    (offering ⟨0x20000020, 0⟩).Quiet ∧
      (offering ⟨0x20000020, 0⟩).inbox = [⟨0x20000020, 0⟩].map HostInput.command ∧
      ∀ c ∈ [Command.mk 0x20000020 0], c.word ≠ 0xC0000000 :=
  ⟨⟨rfl, rfl, rfl⟩, rfl, by decide⟩

theorem witness_StepKeepsStateLegal : demo.Legal := demo_legal

theorem witness_WvalStoresEntry : 31 < C := by decide

theorem witness_WplaneStoresPlane : 31 < WMAX := by decide

theorem witness_ReadsReturnStorageUnchanged : 0 < C ∧ 31 < C ∧ 0 < WMAX ∧ 31 < WMAX := by decide

theorem witness_IndexOutOfRangeRaises : C ≤ 32 ∧ C ≤ 63 ∧ WMAX ≤ 32 ∧ WMAX ≤ 63 := by decide

theorem witness_LshapeDeclaresShape : demo.params.wellFormed = true ∧ 1 ∈ demo.params.widthSet ∧
    32 ∈ demo.params.widthSet ∧ 0 ≤ C ∧ 32 ≤ C := by decide

theorem witness_IllegalShapeRaises :
    C < 33 ∧ 32 ≤ C ∧ 0 ∉ demo.params.widthSet ∧ 33 ∉ demo.params.widthSet := by decide

/-- At W = 8, N = 4 with T = 0; and at W = 1, N = 32 with T = 1, where entries do not fit. -/
theorem witness_EncodeTransposesValues : demo.params.wellFormed = true ∧
    (8 ∈ demo.params.widthSet ∧ 4 ≤ C ∧
      (false = false → ∀ i, i < 4 → (demo.entry 0 i).toNat < 2 ^ 8)) ∧
    (1 ∈ demo.params.widthSet ∧ 32 ≤ C ∧
      (true = false → ∀ i, i < 32 → (demo.entry 0 i).toNat < 2 ^ 1)) := by decide

theorem witness_EncodeOutOfRangeRaises : 1 ∈ demo.params.widthSet ∧ 4 ≤ C ∧ 3 < 4 ∧
    2 ^ 1 ≤ (demo.entry 0 3).toNat := by decide

theorem witness_DecodeTransposesPlanes : demo.params.wellFormed = true ∧
    LaneBuffer.Legal demo.params demo.lane[(1 : LaneBuf)] ∧ (demo.tag 1).valid = true :=
  ⟨by decide, demo_legal.lanes 1, by decide⟩

theorem witness_DecodeUnshapedRaises : (demo.tag 3).valid = false := by decide

theorem witness_TranspositionsAreInverse : Params.default.wellFormed = true ∧
    32 ∈ Params.default.widthSet ∧ 32 ≤ C ∧
    (∀ i, i < 32 → (demo.entry 0 i).toNat < 2 ^ 32) ∧
    ∀ b k, b < 32 → 32 ≤ k → (demo.plane 1 b).getLsbD k = false :=
  ⟨by decide, by decide, by decide, fun i _ => (demo.entry 0 i).isLt,
    fun b k _ h => BitVec.getLsbD_of_ge _ _ h⟩

/-- Sequences that agree in lane 0 and differ in lane 1. -/
theorem witness_TranspositionKeepsLanesApart :
    0 < C ∧ (fun i : Nat => if i = 0 then (5 : Word) else 1) 0 =
      (fun i : Nat => if i = 0 then (5 : Word) else 2) 0 ∧
    ∀ b, b < 8 → ((fun _ : Nat => (1 : PlaneWord)) b).getLsbD 0 =
      ((fun _ : Nat => (3 : PlaneWord)) b).getLsbD 0 := by decide

/-- The ENCODE of E1 into L3 and its later state; a WPLANE into plane 0 between the two keeps the tag. -/
theorem witness_EncodeThenDecodeGivesValues : demo.params.wellFormed = true ∧
    ∃ t, exec (.encode 3 0 8 4 false) demo = .next t ∧ t.phase = .resp ⟨0, 0⟩ ∧
      (t.setPlane 3 0 9).tag 3 = t.tag 3 ∧
      ((t.setPlane 3 0 9).plane 3 1).getLsbD 2 = (t.plane 3 1).getLsbD 2 ∧
      ∀ p i, p < 8 → i < 4 → (t.plane 3 p).getLsbD i = (t.plane 3 p).getLsbD i :=
  ⟨by decide, _, rfl, by decide, by decide, by decide, fun _ _ _ _ => rfl⟩

theorem witness_AddIsLanewiseAddition : demo.params.wellFormed = true ∧
    LaneBuffer.Legal demo.params demo.lane[(1 : LaneBuf)] ∧ (demo.tag 1).valid = true ∧
    demo.tag 0 = demo.tag 1 ∧ (2 : LaneBuf) ≠ 1 ∧ (2 : LaneBuf) ≠ 0 :=
  ⟨by decide, demo_legal.lanes 1, by decide⟩

theorem witness_AddErrorsRaise :
    ((demo.tag 0).valid = false ∨ (demo.tag 3).valid = false) ∧
    ((demo.tag 0).valid = true ∧ (demo.tag 1).valid = true ∧ ((0 : LaneBuf) = 0 ∨ (0 : LaneBuf) = 1)) ∧
    (((demo.setShape 1 8 3 0).tag 0).valid = true ∧ ((demo.setShape 1 8 3 0).tag 1).valid = true ∧
      (2 : LaneBuf) ≠ 0 ∧ (2 : LaneBuf) ≠ 1 ∧
      ((demo.setShape 1 8 3 0).tagW 0 ≠ (demo.setShape 1 8 3 0).tagW 1 ∨
        (demo.setShape 1 8 3 0).tagN 0 ≠ (demo.setShape 1 8 3 0).tagN 1)) := by decide

/-- L3 declared at L1's shape over planes that are 0 below N and not 0 above it. -/
def demoZero : State := demo.setLane 3 (lanes [0xFFFFFFF0] 8 4 0)

theorem witness_AddCommutesWithZeroIdentity : demoZero.params.wellFormed = true ∧
    LaneBuffer.Legal demoZero.params demoZero.lane[(1 : LaneBuf)] ∧ (demoZero.tag 1).valid = true ∧
    demoZero.tag 3 = demoZero.tag 1 ∧ (2 : LaneBuf) ≠ 1 ∧ (2 : LaneBuf) ≠ 3 ∧
    ∀ p, p < demoZero.tagW 1 → demoZero.plane 3 p &&& laneMask (demoZero.tagN 1) = 0 :=
  ⟨by decide, by simp only [LaneBuffer.Legal, Tag.Legal]; decide, by decide⟩

/-- Two states that differ in lane 1 of L1 and agree in lane 0. -/
theorem witness_AddKeepsLanesApart :
    ∃ t t', exec (.add 2 1 0) demo = .next t ∧ exec (.add 2 1 0) (demo.setPlane 1 0 7) = .next t' ∧
      t.phase = .resp ⟨0, 0⟩ ∧ t'.phase = .resp ⟨0, 0⟩ ∧ (demo.setPlane 1 0 7).tag 1 = demo.tag 1 ∧
      (∀ p, p < demo.tagW 1 →
        ((demo.setPlane 1 0 7).plane 1 p).getLsbD 0 = (demo.plane 1 p).getLsbD 0) ∧
      ∀ p, p < demo.tagW 1 →
        ((demo.setPlane 1 0 7).plane 0 p).getLsbD 0 = (demo.plane 0 p).getLsbD 0 :=
  ⟨_, _, rfl, rfl, by decide⟩

/-- The demo state with other bits at and above N in plane 0 of L1, and another plane above W. -/
def demoOutside : State := (demo.setPlane 1 0 0xF5).setPlane 1 9 1

theorem witness_OnlyLaneArrayReachesResult_add :
    ∃ t t', exec (.add 2 1 0) demo = .next t ∧ exec (.add 2 1 0) demoOutside = .next t' ∧
      t.phase = .resp ⟨0, 0⟩ ∧ demoOutside.tag 1 = demo.tag 1 ∧ demoOutside.tag 0 = demo.tag 0 ∧
      (∀ p, p < demo.tagW 1 → demoOutside.plane 1 p &&& laneMask (demo.tagN 1) =
        demo.plane 1 p &&& laneMask (demo.tagN 1)) ∧
      ∀ p, p < demo.tagW 1 → demoOutside.plane 0 p &&& laneMask (demo.tagN 1) =
        demo.plane 0 p &&& laneMask (demo.tagN 1) := ⟨_, _, rfl, rfl, by decide⟩

theorem witness_OnlyLaneArrayReachesResult_decode :
    ∃ t t', exec (.decode 2 1) demo = .next t ∧ exec (.decode 2 1) demoOutside = .next t' ∧
      t.phase = .resp ⟨0, 0⟩ ∧ demoOutside.tag 1 = demo.tag 1 ∧
      ∀ p, p < demo.tagW 1 → demoOutside.plane 1 p &&& laneMask (demo.tagN 1) =
        demo.plane 1 p &&& laneMask (demo.tagN 1) := ⟨_, _, rfl, rfl, by decide⟩

theorem witness_WideSumFromThreeAdditions : (1 ≤ 32 ∧ 32 ≤ WMAX ∧ 2 ≤ C ∧ 1 < 2) ∧
    (1 ≤ 1 ∧ 1 ≤ WMAX ∧ 32 ≤ C ∧ 31 < 32) := by decide

theorem witness_ClockedCommandEqualsAtomicCommand : demo.phase = .idle ∧ demo.held = none := by decide

theorem witness_StepEqualsClockedCommand :
    (offering ⟨0x98400000, 0⟩).phase = .idle ∧ (offering ⟨0x98400000, 0⟩).held = none ∧
      (offering ⟨0x98400000, 0⟩).inbox = .command ⟨0x98400000, 0⟩ :: [] := by decide

/-- A legal state; ADD takes 8 work steps in it, DECODE 4, and an ADD that raises ALIAS none. -/
theorem witness_ResponseComesAtLatency : demo.Legal ∧ commandSteps ⟨0x98400000, 0⟩ demo = 8 ∧
    commandSteps ⟨0x89000000, 0⟩ demo = 4 ∧ commandSteps ⟨0x90400000, 0⟩ demo = 0 :=
  ⟨demo_legal, by decide⟩

theorem witness_PseudoExpansionsAreWellFormed : (Pseudo.vload 0 [7]).wellFormed = true ∧
    (Pseudo.vread 1 64).wellFormed = true ∧ (Pseudo.lzero 2 63 63).wellFormed = true ∧
    (Pseudo.addv 3 0 1 8 4).wellFormed = true := by decide

end Sys2Proof.Tests
end

/-! PROOFS. What a command can write and how it completes, said once for every command, and from it that
every step keeps the invariant of the machine (R25, R26, R28, R120). -/

namespace Sys2Proof.Machine

open Sys2Proof.Config (C WMAX)

/-! ### What a command can do -/

/-- `u` is `s` after the write of one command that raises no error. -/
inductive Written (s : State) : State → Prop
  /-- NOP and the commands that only read. -/
  | nothing : Written s s
  /-- WVAL, DECODE. -/
  | values (v : ValueBuf) (b : Vector Word C) : Written s (s.setValues v b)
  /-- WPLANE. -/
  | plane (l : LaneBuf) (p : Nat) (x : PlaneWord) : Written s (s.setPlane l p x)
  /-- LSHAPE, with a shape that passed its checks. -/
  | shape (l : LaneBuf) {w n : Nat} (hn : n ≤ C) (hw : w ∈ s.params.widthSet) :
      Written s (s.setShape l w n 0)
  /-- ENCODE, with a shape that passed its checks. -/
  | encoded (l : LaneBuf) (f : Nat → PlaneWord) {w n : Nat} (hn : n ≤ C)
      (hw : w ∈ s.params.widthSet) : Written s (s.setLane l (laneImage f w n 0))
  /-- ADD, with the shape of a source `a` that has one. -/
  | added (l a b : LaneBuf) (f : Nat → PlaneWord) (ha : (s.tag a).valid = true) :
      Written s (s.setLane l (laneImage f (s.tagW a) (s.tagN a)
        (carryInto (s.plane a) (s.plane b) (laneMask (s.tagN a)) (s.tagW a))))
  /-- CLRSTAT. -/
  | cleared : Written s { s with erracc := 0 }

/-- `t` is `s` after one command: an error raised and nothing written, or its write and an OK response. -/
inductive Effect (s : State) : State → Prop
  | raised {e : ErrCode} (he : e ≠ .ok) : Effect s (s.raise e)
  | done {u : State} (hu : Written s u) (x : Word) : Effect s (u.respond x)

/-! ### Checks find errors, never OK -/

theorem checkIndex_ne_ok (idx bound : Nat) : checkIndex idx bound ≠ some .ok := by
  unfold checkIndex; split <;> simp

theorem checkShape_ne_ok (params : Params) (w n : Nat) : checkShape params w n ≠ some .ok := by
  rcases checkShape_cases params w n with ⟨_, e⟩ | ⟨_, _, e⟩ | ⟨_, _, e⟩ <;> simp [e]

theorem legalShape_of_checkShape {params : Params} {w n : Nat} (h : checkShape params w n = none) :
    n ≤ C ∧ w ∈ params.widthSet := by
  rcases checkShape_cases params w n with ⟨_, e⟩ | ⟨_, _, e⟩ | ⟨hn, hw, _⟩
  · simp [e] at h
  · simp [e] at h
  · exact ⟨hn, hw⟩

theorem encodeCheck_ne_ok (s : State) (src : ValueBuf) (w n : Nat) (t : Bool) :
    encodeCheck s src w n t ≠ some .ok := by
  rcases encodeCheck_cases s src w n t with ⟨_, e⟩ | ⟨_, _, e⟩ | ⟨_, _, _, _, e⟩ | ⟨_, _, _, e⟩ <;>
    simp [e]

theorem legalShape_of_encodeCheck {s : State} {src : ValueBuf} {w n : Nat} {t : Bool}
    (h : encodeCheck s src w n t = none) : n ≤ C ∧ w ∈ s.params.widthSet := by
  rcases encodeCheck_cases s src w n t with ⟨_, e⟩ | ⟨_, _, e⟩ | ⟨_, _, _, _, e⟩ | ⟨hn, hw, _, _⟩
  · simp [e] at h
  · simp [e] at h
  · simp [e] at h
  · exact ⟨hn, hw⟩

theorem decodeCheck_ne_ok (s : State) (src : LaneBuf) : decodeCheck s src ≠ some .ok := by
  unfold decodeCheck; split <;> simp

theorem addCheck_ne_ok (s : State) (d a b : LaneBuf) : addCheck s d a b ≠ some .ok := by
  rcases addCheck_cases s d a b with ⟨_, e⟩ | ⟨_, _, _, e⟩ | ⟨_, _, _, _, _, e⟩ | ⟨_, _, _, _, e⟩ <;>
    simp [e]

theorem valid_of_addCheck {s : State} {d a b : LaneBuf} (h : addCheck s d a b = none) :
    (s.tag a).valid = true := by
  rcases addCheck_cases s d a b with ⟨_, e⟩ | ⟨ha, _⟩ | ⟨ha, _⟩ | ⟨ha, _⟩
  · simp [e] at h
  · exact ha
  · exact ha
  · exact ha

/-! ### Every command has an effect -/

theorem respond_effect {s u : State} (hu : Written s u) (x : Word) :
    ∃ t, (.next (u.respond x) : StepResult) = .next t ∧ Effect s t :=
  ⟨_, rfl, .done hu x⟩

theorem guarded_effect {s u : State} {err : Option ErrCode} {x : Word} (herr : err ≠ some .ok)
    (hu : err = none → Written s u) : ∃ t, guarded err s (u.respond x) = .next t ∧ Effect s t := by
  cases err with
  | none => exact ⟨_, rfl, .done (hu rfl) x⟩
  | some e => exact ⟨_, rfl, .raised fun he => herr (congrArg some he)⟩

/-- Every command answers a next state, and what it can have done is in `Effect`. -/
theorem exec_effect (i : Instr) (s : State) : ∃ t, exec i s = .next t ∧ Effect s t := by
  cases i with
  | nop => exact respond_effect .nothing _
  | wval d idx data => exact guarded_effect (checkIndex_ne_ok _ _) fun _ => .values d _
  | rval src idx => exact guarded_effect (checkIndex_ne_ok _ _) fun _ => .nothing
  | wplane d p data => exact guarded_effect (checkIndex_ne_ok _ _) fun _ => .plane d p data
  | rplane src p => exact guarded_effect (checkIndex_ne_ok _ _) fun _ => .nothing
  | lshape d w n =>
    refine guarded_effect (checkShape_ne_ok _ _ _) fun h => ?_
    obtain ⟨hn, hw⟩ := legalShape_of_checkShape h
    exact .shape d hn hw
  | rtag src => exact respond_effect .nothing _
  | encode d src w n t =>
    refine guarded_effect (encodeCheck_ne_ok _ _ _ _ _) fun h => ?_
    obtain ⟨hn, hw⟩ := legalShape_of_encodeCheck h
    exact .encoded d _ hn hw
  | decode d src => exact guarded_effect (decodeCheck_ne_ok _ _) fun _ => .values d _
  | add d a b =>
    exact guarded_effect (addCheck_ne_ok _ _ _ _) fun h => .added d a b _ (valid_of_addCheck h)
  | rcarry src => exact respond_effect .nothing _
  | rstat => exact respond_effect .nothing _
  | clrstat => exact respond_effect .cleared _
  | rdcfg => exact respond_effect .nothing _

/-- The same of a command word, which raises ILLEGAL if it spells no command. -/
theorem executeCommand_effect (c : Command) (s : State) :
    ∃ t, executeCommand c s = .next t ∧ Effect s t := by
  unfold executeCommand
  cases decodeCommand c.word c.data with
  | error _ => exact ⟨_, rfl, .raised (by decide)⟩
  | ok i => exact exec_effect i s

/-! ### How a command completes -/

theorem completes_raise (s : State) (e : ErrCode) : Completes s (s.raise e) e 0 :=
  ⟨rfl, rfl, rfl, rfl, rfl, rfl⟩

theorem Written.completes {s u : State} (hu : Written s u) (x : Word) :
    Completes s (u.respond x) .ok x := by
  cases hu <;> exact ⟨rfl, rfl, rfl, rfl, rfl, rfl⟩

/-- R59, R120: one response is pending, with data 0 if it reports an error. -/
theorem Effect.completes {s t : State} (h : Effect s t) :
    ∃ e x, Completes s t e x ∧ Response.Legal ⟨e.code, x⟩ := by
  cases h with
  | @raised e he => exact ⟨e, 0, completes_raise s e, ErrCode.code_toNat_le e, fun _ => rfl⟩
  | done hu x => exact ⟨.ok, x, hu.completes x, ErrCode.code_toNat_le .ok, fun h => absurd rfl h⟩

/-! ### Legal tags and carry registers (R25, R26) -/

/-- A member of a legal WIDTH_SET is a width of 1 .. WMAX (R8). -/
theorem width_bounds_of_mem {params : Params} (h : params.wellFormed = true) {w : Nat}
    (hw : w ∈ params.widthSet) : 1 ≤ w ∧ w ≤ WMAX := by
  simp only [Params.wellFormed, Bool.and_eq_true, List.all_eq_true, decide_eq_true_eq] at h
  obtain ⟨_, hall⟩ := h
  exact hall w hw

theorem Tag.ofShape_legal {params : Params} (hp : params.wellFormed = true) {w n : Nat} (hn : n ≤ C)
    (hw : w ∈ params.widthSet) : Tag.Legal params (Tag.ofShape w n) := by
  have hw32 : w ≤ 32 := (width_bounds_of_mem hp hw).2
  have hn32 : n ≤ 32 := hn
  have hw' : (BitVec.ofNat 6 w).toNat = w := Nat.mod_eq_of_lt (by omega)
  have hn' : (BitVec.ofNat 6 n).toNat = n := Nat.mod_eq_of_lt (by omega)
  exact ⟨fun _ => ⟨hw'.symm ▸ hw, hn'.symm ▸ hn⟩, fun h => Bool.noConfusion h⟩

/-- The tag that copies a tag's shape is that tag, if it is valid. -/
theorem Tag.ofShape_toNat {t : Tag} (h : t.valid = true) : Tag.ofShape t.w.toNat t.n.toNat = t := by
  cases t; simp_all [Tag.ofShape]

theorem LaneBuffer.legal_of_carry_zero {params : Params} {b : LaneBuffer}
    (ht : Tag.Legal params b.tag) (hc : b.carry = 0) : LaneBuffer.Legal params b :=
  ⟨ht, by simp [hc]⟩

/-- The carry chain over masked planes has no bit outside the mask (R81). -/
theorem carryInto_and_mask (A B : Nat → PlaneWord) (m : PlaneWord) (w : Nat) :
    carryInto A B m w &&& m = carryInto A B m w := by
  cases w with
  | zero => simp [carryInto]
  | succ p =>
    apply BitVec.eq_of_getLsbD_eq
    intro i hi
    simp only [carryInto, fullAdderCarry, BitVec.getLsbD_and, BitVec.getLsbD_or, BitVec.getLsbD_xor]
    cases m.getLsbD i <;> simp

theorem LaneBuffer.cleared_legal (params : Params) : LaneBuffer.Legal params LaneBuffer.cleared :=
  legal_of_carry_zero ⟨fun h => Bool.noConfusion h, fun _ => rfl⟩ rfl

/-! ### Legal ERRACC (R28) -/

theorem ErrCode.code_toNat_pos {e : ErrCode} (h : e ≠ .ok) : 0 < e.code.toNat := by
  cases e with
  | ok => exact absurd rfl h
  | _ => decide

theorem errAccLegal_zero : ErrAccLegal 0 := by intro k _ _; simp

theorem ErrAccLegal.accumulate {acc : BitVec 16} (h : ErrAccLegal acc) {e : ErrCode} (he : e ≠ .ok) :
    ErrAccLegal (accumulate acc e) := by
  intro k hk hbit
  have hpos := ErrCode.code_toNat_pos he
  have hle := ErrCode.code_toNat_le e
  have hne : k ≠ e.code.toNat := by omega
  simp [accumulate_getLsbD acc e hk, h k hk hbit, hne]

/-! ### The part of the invariant that a command in flight keeps too -/

/-- The clauses of `State.Legal` on the storage and on the parameters. -/
structure State.StorageLegal (s : State) : Prop where
  params : s.params.wellFormed = true
  lanes : ∀ l : LaneBuf, LaneBuffer.Legal s.params s.lane[l]
  erracc : ErrAccLegal s.erracc

theorem State.StorageLegal.setLane {s : State} (h : s.StorageLegal) (l : LaneBuf) {b : LaneBuffer}
    (hb : LaneBuffer.Legal s.params b) : (s.setLane l b).StorageLegal where
  params := h.params
  lanes l' := by
    rw [State.lane_setLane_get]
    split
    · exact hb
    · exact h.lanes l'
  erracc := h.erracc

/-- R25, R26, R28: what a command writes is legal. -/
theorem Written.storageLegal {s u : State} (hu : Written s u) (h : s.StorageLegal) :
    u.StorageLegal := by
  cases hu with
  | nothing => exact h
  | values v b => exact ⟨h.params, h.lanes, h.erracc⟩
  | plane l p x => exact h.setLane l (h.lanes l)
  | shape l hn hw =>
    exact h.setLane l (LaneBuffer.legal_of_carry_zero (Tag.ofShape_legal h.params hn hw) rfl)
  | encoded l f hn hw =>
    exact h.setLane l (LaneBuffer.legal_of_carry_zero (Tag.ofShape_legal h.params hn hw) rfl)
  | added l a b f ha =>
    have htag : Tag.ofShape (s.tagW a) (s.tagN a) = s.tag a := Tag.ofShape_toNat ha
    refine h.setLane l ⟨?_, ?_⟩
    · rw [laneImage_tag, htag]
      exact (h.lanes a).1
    · rw [laneImage_tag, laneImage_carry, htag]
      exact carryInto_and_mask ..
  | cleared => exact ⟨h.params, h.lanes, errAccLegal_zero⟩

theorem Effect.storageLegal {s t : State} (ht : Effect s t) (h : s.StorageLegal) : t.StorageLegal := by
  cases ht with
  | raised he => exact ⟨h.params, h.lanes, h.erracc.accumulate he⟩
  | done hu x =>
    obtain ⟨hparams, hlanes, herracc⟩ := hu.storageLegal h
    exact ⟨hparams, hlanes, herracc⟩

/-! ### Reset -/

theorem State.reset_lane_get (l : LaneBuf) : State.reset.lane[l] = LaneBuffer.cleared := by
  simp [State.reset]

theorem State.resetBlock_storageLegal {s : State} (h : s.params.wellFormed = true) :
    s.resetBlock.StorageLegal where
  params := h
  lanes l := by
    rw [State.resetBlock_lane, State.reset_lane_get]
    exact LaneBuffer.cleared_legal _
  erracc := errAccLegal_zero

/-! ### The ports of a host that holds no offer -/

theorem State.offerKept_of_held_none {s : State} (h : s.held = none) (p : Pins) :
    s.offerKept p = true := by
  simp [State.offerKept, h]

/-- The host offers again what it holds. -/
theorem State.hostPins_offer (s : State) (rst : Bool) : (s.hostPins rst).offer = s.held := by
  cases h : s.held <;> simp [State.hostPins, Pins.offering, Pins.offer, h]

/-! ### One step from IDLE with no offer held -/

/-- R141: an edge with `rst` high. -/
theorem clockEdge_of_rst {s : State} {p : Pins} (hheld : s.held = none) (hrst : p.rst = true) :
    clockEdge p s = .next (s.resetBlock.holdOffer p) := by
  simp [clockEdge, State.offerKept_of_held_none hheld, hrst]

/-- R131: an edge at which nothing is offered to a block in IDLE. -/
theorem clockEdge_of_idle {s : State} {p : Pins} (hphase : s.phase = .idle) (hheld : s.held = none)
    (hrst : p.rst = false) (hoffer : p.offer = none) : clockEdge p s = .next s := by
  have hhold : s.holdOffer p = s := by rw [State.holdOffer, hoffer, ← hheld]
  simp [clockEdge, State.offerKept_of_held_none hheld, hrst, sequencerEdge, hphase, hoffer, hhold]

theorem step_of_reset {s : State} {rest : List HostInput} (hheld : s.held = none)
    (hin : s.inbox = .reset :: rest) :
    step s = .next (({ s with inbox := rest } : State).resetBlock.holdOffer (s.hostPins true)) := by
  unfold step
  rw [hin]
  exact clockEdge_of_rst hheld rfl

theorem step_of_command {s : State} {c : Command} {rest : List HostInput} (hphase : s.phase = .idle)
    (hheld : s.held = none) (hin : s.inbox = .command c :: rest) :
    step s = transact c { s with inbox := rest } := by
  unfold step
  rw [hin, hphase]
  exact if_pos (State.offerKept_of_held_none hheld _)

theorem step_of_empty {s : State} (hphase : s.phase = .idle) (hheld : s.held = none)
    (hin : s.inbox = []) : step s = .next s := by
  unfold step
  rw [hin, hphase]
  exact clockEdge_of_idle hphase hheld rfl rfl

/-- A command run to the taking of its response: its effect, then IDLE with an empty latch, the response
at the end of the outbox, and no offer held. -/
theorem transact_cases (c : Command) (s : State) :
    ∃ t r, Effect (s.accept c) t ∧ Response.Legal r ∧ t.held = none ∧ t.outbox = s.outbox ∧
      transact c s = .next { t with phase := .idle, latched := none, outbox := t.outbox ++ [r] } := by
  obtain ⟨t, hexec, heffect⟩ := executeCommand_effect c (s.accept c)
  obtain ⟨e, x, hdone, hlegal⟩ := heffect.completes
  refine ⟨t, ⟨e.code, x⟩, heffect, hlegal, hdone.held, hdone.outbox, ?_⟩
  rw [transact, hexec, andThen_next]
  exact State.takeResponse_of_resp t hdone.phase hlegal.1

theorem transact_legal {s : State} (h : s.Legal) (c : Command) :
    ∃ t, transact c s = .next t ∧ t.Legal := by
  obtain ⟨t, r, heffect, hr, hheld, houtbox, htransact⟩ := transact_cases c s
  have hstorage : t.StorageLegal := heffect.storageLegal ⟨h.params, h.lanes, h.erracc⟩
  refine ⟨_, htransact, hstorage.params, hstorage.lanes, hstorage.erracc, ⟨rfl, rfl, hheld⟩, ?_⟩
  intro q hq
  rcases List.mem_append.mp hq with hold | hnew
  · exact h.responses q (houtbox ▸ hold)
  · exact List.mem_singleton.mp hnew ▸ hr

/-! ### The invariant -/

/-- Settles O2. -/
theorem resetStateIsLegal : Obligations.ResetStateIsLegal where
  params := by decide
  lanes l := by
    rw [State.reset_lane_get]
    exact LaneBuffer.cleared_legal _
  erracc := errAccLegal_zero
  quiet := ⟨rfl, rfl, rfl⟩
  responses r hr := absurd hr List.not_mem_nil

/-- Settles O23, by the host's next action: nothing, a reset, or a command. -/
theorem stepKeepsStateLegal : Obligations.StepKeepsStateLegal := by
  intro s h
  obtain ⟨hphase, _, hheld⟩ := h.quiet
  match hin : s.inbox with
  | [] => exact ⟨s, step_of_empty hphase hheld hin, h⟩
  | .reset :: rest =>
    have hstorage := State.resetBlock_storageLegal (s := { s with inbox := rest }) h.params
    refine ⟨_, step_of_reset hheld hin, hstorage.params, hstorage.lanes, hstorage.erracc,
      ⟨rfl, rfl, ?_⟩, h.responses⟩
    rw [State.holdOffer_held, State.hostPins_offer, hheld]
  | .command c :: rest =>
    rw [step_of_command hphase hheld hin]
    have hrest : State.Legal { s with inbox := rest } :=
      ⟨h.params, h.lanes, h.erracc, h.quiet, h.responses⟩
    exact transact_legal hrest c

end Sys2Proof.Machine

/-! PROOFS. Every command as one check, one write and one answer, and from it what a command does to
ERRACC, to the tags and carry registers, and to the host's two lists (R25, R26, R28, R121). -/

namespace Sys2Proof.Machine

open Sys2Proof.Config (C WMAX NV NL)

/-! ### A command as a check, a write and an answer -/

/-- The error a command's checks find, if they find one. -/
def checkOf (i : Instr) (s : State) : Option ErrCode :=
  match i with
  | .wval _ idx _ => checkIndex idx C
  | .rval _ idx => checkIndex idx C
  | .wplane _ p _ => checkIndex p WMAX
  | .rplane _ p => checkIndex p WMAX
  | .lshape _ w n => checkShape s.params w n
  | .encode _ src w n t => encodeCheck s src w n t
  | .decode _ src => decodeCheck s src
  | .add d a b => addCheck s d a b
  | .nop | .rtag _ | .rcarry _ | .rstat | .clrstat | .rdcfg => none

/-- What a command writes once its checks have found nothing. -/
def writeOf (i : Instr) (s : State) : State :=
  match i with
  | .wval d idx data => s.setEntry d idx data
  | .wplane d p data => s.setPlane d p data
  | .lshape d w n => s.setShape d w n 0
  | .encode d src w n _ => s.setLane d (laneImage (toLane (s.entry src) n) w n 0)
  | .decode d src => s.setValues d (valueImage (toValue (s.plane src) (s.tagW src)) (s.tagN src))
  | .add d a b =>
    let m := laneMask (s.tagN a)
    s.setLane d (laneImage (sumPlane (s.plane a) (s.plane b) m) (s.tagW a) (s.tagN a)
      (carryInto (s.plane a) (s.plane b) m (s.tagW a)))
  | .clrstat => { s with erracc := 0 }
  | .nop | .rval _ _ | .rplane _ _ | .rtag _ | .rcarry _ | .rstat | .rdcfg => s

/-- The response data of a command that completes with OK. -/
def answerOf (i : Instr) (s : State) : Word :=
  match i with
  | .rval src idx => s.entry src idx
  | .rplane src p => s.plane src p
  | .rtag src => (s.tag src).word
  | .rcarry src => s.carry src
  | .rstat => s.erracc.setWidth 32
  | .rdcfg => s.cfg
  | .nop | .wval _ _ _ | .wplane _ _ _ | .lshape _ _ _ | .encode _ _ _ _ _ | .decode _ _
  | .add _ _ _ | .clrstat => 0

theorem exec_eq_guarded (i : Instr) (s : State) :
    exec i s = guarded (checkOf i s) s ((writeOf i s).respond (answerOf i s)) := by
  cases i <;> rfl

theorem checkOf_ne_ok (i : Instr) (s : State) : checkOf i s ≠ some .ok := by
  cases i with
  | wval | rval | wplane | rplane => exact checkIndex_ne_ok _ _
  | lshape d w n => exact checkShape_ne_ok _ _ _
  | encode d src w n t => exact encodeCheck_ne_ok _ _ _ _ _
  | decode d src => exact decodeCheck_ne_ok _ _
  | add d a b => exact addCheck_ne_ok _ _ _ _
  | nop | rtag | rcarry | rstat | clrstat | rdcfg => exact nofun

/-- ADD passes its checks only when it writes neither source (R82). -/
theorem dest_ne_of_addCheck {s : State} {d a b : LaneBuf} (h : addCheck s d a b = none) :
    d ≠ a ∧ d ≠ b := by
  rcases addCheck_cases s d a b with
    ⟨_, e⟩ | ⟨_, _, _, e⟩ | ⟨_, _, hda, hdb, _⟩ | ⟨_, _, hda, hdb, _⟩
  · exact nomatch h.symm.trans e
  · exact nomatch h.symm.trans e
  · exact ⟨hda, hdb⟩
  · exact ⟨hda, hdb⟩

/-- The two ways in which a command reaches its next state. -/
theorem exec_eq_next {i : Instr} {s t : State} (h : exec i s = .next t) :
    (∃ e, e ≠ .ok ∧ checkOf i s = some e ∧ t = s.raise e) ∨
      (checkOf i s = none ∧ t = (writeOf i s).respond (answerOf i s)) := by
  rw [exec_eq_guarded, guarded_eq_next] at h
  refine h.imp_left fun ⟨e, hcheck, ht⟩ => ⟨e, ?_, hcheck, ht⟩
  rintro rfl
  exact checkOf_ne_ok i s hcheck

theorem exec_of_checkOf_none {i : Instr} {s : State} (h : checkOf i s = none) :
    exec i s = .next ((writeOf i s).respond (answerOf i s)) := by
  rw [exec_eq_guarded, h, guarded_none]

/-- A response with code OK says that the checks found nothing and the write was made. -/
theorem exec_ok_eq_next {i : Instr} {s t : State} {x : Word} (h : exec i s = .next t)
    (hphase : t.phase = .resp ⟨0, x⟩) :
    checkOf i s = none ∧ t = (writeOf i s).respond (answerOf i s) := by
  rcases exec_eq_next h with ⟨e, hne, _, rfl⟩ | hdone
  · rw [State.raise_phase, Phase.resp.injEq, Response.mk.injEq] at hphase
    exact absurd (ErrCode.code_injective (f := .ok) hphase.1) hne
  · exact hdone

/-- R28: no command but CLRSTAT writes ERRACC. -/
theorem writeOf_erracc {i : Instr} (hi : i ≠ .clrstat) (s : State) :
    (writeOf i s).erracc = s.erracc := by
  cases i with
  | clrstat => exact absurd rfl hi
  | _ => rfl

/-! ### The same of a command word -/

theorem executeCommand_of_error {c : Command} {err : DecodeError}
    (h : decodeCommand c.word c.data = .error err) (s : State) :
    executeCommand c s = .next (s.raise .illegal) := by
  simp only [executeCommand, h]

theorem executeCommand_of_ok {c : Command} {i : Instr} (h : decodeCommand c.word c.data = .ok i)
    (s : State) : executeCommand c s = exec i s := by
  simp only [executeCommand, h]

/-- The word of CLRSTAT is the only one that spells it (R51, R52). -/
theorem decodeCommand_eq_clrstat_iff {cmd data : Word} :
    decodeCommand cmd data = .ok .clrstat ↔ cmd = 0xC0000000 := by
  rw [decodeCommand_eq_ok]
  constructor
  · rintro ⟨op, _, hmatch, hi⟩
    have hop : op = .clrstat := by rw [← opcode_assemble op cmd data, ← hi]; rfl
    subst hop
    have hmask : Opcode.clrstat.maskWord = BitVec.allOnes 32 := by decide
    rwa [hmask, BitVec.and_allOnes] at hmatch
  · rintro rfl
    exact ⟨.clrstat, by decide, by decide, rfl⟩

/-- R121: what a command word does to ERRACC, from the code it answers with. -/
structure Accounted (c : Command) (s t : State) (r : Response) : Prop where
  error : r.err ≠ 0 → r.data = 0 ∧ t.value = s.value ∧ t.lane = s.lane ∧
    ∀ k, k < 16 → t.erracc.getLsbD k = (s.erracc.getLsbD k || k == r.err.toNat)
  ok : r.err = 0 → c.word ≠ 0xC0000000 → t.erracc = s.erracc
  clrstat : c.word = 0xC0000000 → r.err = 0 ∧ t.erracc = 0

theorem accounted_raise {c : Command} {e : ErrCode} (he : e ≠ .ok) (hc : c.word ≠ 0xC0000000)
    (s : State) : Accounted c s (s.raise e) ⟨e.code, 0⟩ where
  error _ := ⟨rfl, rfl, rfl, fun _ hk => accumulate_getLsbD s.erracc e hk⟩
  ok hcode := absurd (ErrCode.code_injective (f := .ok) hcode) he
  clrstat hword := absurd hword hc

theorem accounted_writeOf {c : Command} {i : Instr} (hi : decodeCommand c.word c.data = .ok i)
    (s : State) (x : Word) : Accounted c s ((writeOf i s).respond x) ⟨0, x⟩ where
  error hcode := absurd rfl hcode
  ok _ hc := writeOf_erracc (fun hclr => hc (decodeCommand_eq_clrstat_iff.mp (hclr ▸ hi))) s
  clrstat hword := by
    have hclr : i = .clrstat :=
      Except.ok.inj (hi.symm.trans (decodeCommand_eq_clrstat_iff.mpr hword))
    subst hclr
    exact ⟨rfl, rfl⟩

/-- R121 for every command word, by what the decoder and then the checks say. -/
theorem executeCommand_accounted (c : Command) (s : State) :
    ∃ t r, executeCommand c s = .next t ∧ t.phase = .resp r ∧ Accounted c s t r := by
  cases hdec : decodeCommand c.word c.data with
  | error err =>
    have hc : c.word ≠ 0xC0000000 := fun hword => by
      exact nomatch hdec.symm.trans (decodeCommand_eq_clrstat_iff.mpr hword)
    exact ⟨_, _, executeCommand_of_error hdec s, rfl, accounted_raise (by decide) hc s⟩
  | ok i =>
    obtain ⟨t, hexec, _⟩ := exec_effect i s
    rw [executeCommand_of_ok hdec, hexec]
    rcases exec_eq_next hexec with ⟨e, he, hcheck, rfl⟩ | ⟨_, rfl⟩
    · refine ⟨_, _, rfl, rfl, accounted_raise he (fun hword => ?_) s⟩
      have hclr : i = .clrstat :=
        Except.ok.inj (hdec.symm.trans (decodeCommand_eq_clrstat_iff.mpr hword))
      subst hclr
      exact nomatch hcheck
    · exact ⟨_, _, rfl, rfl, accounted_writeOf hdec s _⟩

/-- The response pending after a command word is taken without a fault: its code is one of R120. -/
theorem takeResponse_of_executeCommand {c : Command} {s t : State} {r : Response}
    (h : executeCommand c s = .next t) (hphase : t.phase = .resp r) :
    t.takeResponse = .next { t with phase := .idle, latched := none, outbox := s.outbox ++ [r] } ∧
      t.held = s.held ∧ t.inbox = s.inbox := by
  obtain ⟨u, hu, heffect⟩ := executeCommand_effect c s
  obtain rfl : u = t := Host.Outcome.next.inj (hu.symm.trans h)
  obtain ⟨e, x, hdone, hlegal⟩ := heffect.completes
  obtain rfl : r = ⟨e.code, x⟩ := Phase.resp.inj (hphase.symm.trans hdone.phase)
  rw [State.takeResponse_of_resp u hphase hlegal.1, hdone.outbox]
  exact ⟨rfl, hdone.held, hdone.inbox⟩

theorem executeCommand_held_none {s : State} (hheld : s.held = none) (c : Command) :
    ∃ t, executeCommand c s = .next t ∧ t.held = none := by
  obtain ⟨t, hexec, heffect⟩ := executeCommand_effect c s
  obtain ⟨_, _, hdone, _⟩ := heffect.completes
  exact ⟨t, hexec, hdone.held.trans hheld⟩

/-- Settles O16. -/
theorem errorAccounting : Obligations.ErrorAccounting := by
  intro s c rest ⟨hphase, _, hheld⟩ hin
  let s' : State := { s with inbox := rest }
  obtain ⟨t, r, hexec, hresp, hacc⟩ := executeCommand_accounted c (s'.accept c)
  obtain ⟨htake, hheld', hinbox⟩ := takeResponse_of_executeCommand hexec hresp
  rw [step_of_command hphase hheld hin, transact, hexec, andThen_next, htake]
  exact ⟨_, r, rfl, ⟨rfl, rfl, hheld'⟩, hinbox, rfl, hacc.error, hacc.ok, hacc.clrstat⟩

/-! ### A run of commands -/

theorem core_run_succ {s t : State} (h : step s = .next t) (k : Nat) :
    Sys2Proof.core.run (k + 1) s = Sys2Proof.core.run k t := by
  have hcore : Sys2Proof.core.step s = .next t := h
  simp only [Host.Core.run, hcore]

/-- R28, R121: one command without CLRSTAT sets at most the ERRACC bit of its response. -/
theorem step_erracc_bit {s : State} {c : Command} {rest : List HostInput} (hs : s.Quiet)
    (hin : s.inbox = .command c :: rest) (hc : c.word ≠ 0xC0000000) :
    ∃ t r, step s = .next t ∧ t.Quiet ∧ t.inbox = rest ∧ t.outbox = s.outbox ++ [r] ∧
      ∀ k, 1 ≤ k → k < 16 → t.erracc.getLsbD k = (s.erracc.getLsbD k || r.err.toNat == k) := by
  obtain ⟨t, r, hstep, hquiet, hinbox, houtbox, herr, hok, _⟩ := errorAccounting s c rest hs hin
  refine ⟨t, r, hstep, hquiet, hinbox, houtbox, fun k hpos hk => ?_⟩
  by_cases hr : r.err = 0
  · have hne : (r.err.toNat == k) = false := by simp [hr]; omega
    rw [hok hr hc, hne, Bool.or_false]
  · obtain ⟨_, _, _, hbits⟩ := herr hr
    rw [hbits k hk, Bool.beq_comm]

/-- Settles O22, by induction on the commands. -/
theorem erraccCollectsResponseCodes : Obligations.ErraccCollectsResponseCodes := by
  intro cs
  induction cs with
  | nil => exact fun s _ _ _ => ⟨s, [], rfl, by simp, rfl, by simp⟩
  | cons c cs ih =>
    intro s hs hin hcs
    obtain ⟨hc, hcs'⟩ := List.forall_mem_cons.mp hcs
    obtain ⟨t, r, hstep, hquiet, hinbox, houtbox, hbit⟩ := step_erracc_bit hs hin hc
    obtain ⟨u, rs, hrun, houtbox', hlen, hbits⟩ := ih t hquiet hinbox hcs'
    refine ⟨u, r :: rs, ?_, ?_, ?_, fun k hpos hk => ?_⟩
    · rw [List.length_cons, core_run_succ hstep, hrun]
    · rw [houtbox', houtbox, List.append_assoc, List.singleton_append]
    · rw [List.length_cons, List.length_cons, hlen]
    · rw [hbits k hpos hk, hbit k hpos hk, List.any_cons, Bool.or_assoc]

/-! ### Who writes tags and carry registers -/

theorem State.tag_setLane (s : State) (l l' : LaneBuf) (b : LaneBuffer) :
    (s.setLane l b).tag l' = if l' = l then b.tag else s.tag l' := by
  rw [State.tag, State.lane_setLane_get, apply_ite LaneBuffer.tag, State.tag]

theorem State.carry_setLane (s : State) (l l' : LaneBuf) (b : LaneBuffer) :
    (s.setLane l b).carry l' = if l' = l then b.carry else s.carry l' := by
  rw [State.carry, State.lane_setLane_get, apply_ite LaneBuffer.carry, State.carry]

/-- The commands that give lane buffer `l` a shape. -/
def ShapesLane (i : Instr) (l : LaneBuf) : Prop :=
  (∃ w n, i = .lshape l w n) ∨ (∃ v w n x, i = .encode l v w n x) ∨ (∃ a b, i = .add l a b)

/-- Writing lane buffer `d` with a shape leaves the tag and carry register of every other one. -/
theorem setLane_shapes_or_keeps (s : State) (d l : LaneBuf) {b : LaneBuffer}
    (hb : b.tag.valid = true) :
    (l = d ∧ ((s.setLane d b).tag l).valid = true) ∨
      ((s.setLane d b).tag l = s.tag l ∧ (s.setLane d b).carry l = s.carry l) := by
  rw [State.tag_setLane, State.carry_setLane]
  by_cases hl : l = d
  · exact .inl ⟨hl, by rw [if_pos hl, hb]⟩
  · exact .inr ⟨if_neg hl, if_neg hl⟩

/-- R25, R26: a command shapes lane buffer `l`, or keeps its tag and its carry register. -/
theorem writeOf_shapes_or_keeps (i : Instr) (s : State) (l : LaneBuf) :
    (ShapesLane i l ∧ ((writeOf i s).tag l).valid = true) ∨
      ((writeOf i s).tag l = s.tag l ∧ (writeOf i s).carry l = s.carry l) := by
  cases i with
  | wplane d p data => exact .inr ⟨State.tag_setPlane .., State.carry_setPlane ..⟩
  | lshape d w n =>
    refine (setLane_shapes_or_keeps s d l rfl).imp_left fun ⟨hl, hvalid⟩ => ⟨?_, hvalid⟩
    exact .inl ⟨w, n, hl ▸ rfl⟩
  | encode d src w n t =>
    refine (setLane_shapes_or_keeps s d l rfl).imp_left fun ⟨hl, hvalid⟩ => ⟨?_, hvalid⟩
    exact .inr (.inl ⟨src, w, n, t, hl ▸ rfl⟩)
  | add d a b =>
    refine (setLane_shapes_or_keeps s d l rfl).imp_left fun ⟨hl, hvalid⟩ => ⟨?_, hvalid⟩
    exact .inr (.inr ⟨a, b, hl ▸ rfl⟩)
  | _ => exact .inr ⟨rfl, rfl⟩

/-- Settles O20. -/
theorem tagAndCarryWriters : Obligations.TagAndCarryWriters := by
  intro i s t l h
  rcases exec_eq_next h with ⟨e, _, _, rfl⟩ | ⟨_, rfl⟩
  · exact ⟨fun hne => absurd hne (by simp [State.tag, State.carry]), id⟩
  · rcases writeOf_shapes_or_keeps i s l with ⟨hshapes, hvalid⟩ | ⟨htag, hcarry⟩
    · exact ⟨fun _ => hshapes, fun _ => hvalid⟩
    · exact ⟨fun hne => (hne.elim (· htag) (· hcarry)).elim, fun hvalid => htag ▸ hvalid⟩

end Sys2Proof.Machine

/-! PROOFS. What RDCFG returns (R103), and what of a source can reach the result of ADD and DECODE
(R24, U7). -/

namespace Sys2Proof.Machine

open Sys2Proof.Config (C WMAX NV NL)

/-! ### CFG -/

/-- FULLW says that WIDTH_SET has the members 1 to 32 and no other (R103). -/
theorem fullWidth_iff (p : Params) :
    fullWidth p = true ↔ ∀ w, w ∈ p.widthSet ↔ 1 ≤ w ∧ w ≤ 32 := by
  simp only [fullWidth, Bool.and_eq_true, List.all_eq_true, List.contains_iff_mem,
    List.mem_range'_1, decide_eq_true_eq]
  constructor
  · rintro ⟨hall, honly⟩ w
    exact ⟨honly w, fun ⟨hlo, hhi⟩ => hall w ⟨hlo, by omega⟩⟩
  · intro h
    exact ⟨fun w ⟨hlo, hhi⟩ => (h w).mpr ⟨hlo, by omega⟩, fun w hw => (h w).mp hw⟩

/-- R103: CFG as a sum of its fields. -/
theorem cfgWord_toNat (p : Params) :
    (cfgWord p).toNat = 0x58 * 2 ^ 24 + (fullWidth p).toNat * 2 ^ 20 + 1 * 2 ^ 16 +
      (NL - 1) * 2 ^ 14 + (NV - 1) * 2 ^ 12 + WMAX * 2 ^ 6 + C := by
  unfold cfgWord
  cases fullWidth p <;> decide

/-- Settles O32. -/
theorem rdcfgReturnsParameters : Obligations.RdcfgReturnsParameters :=
  fun s => ⟨s.cfg, fullWidth s.params, rfl, fullWidth_iff s.params, cfgWord_toNat s.params⟩

/-! ### The destination's contents depend on what lies below the shape -/

theorem laneImage_congr {f g : Nat → PlaneWord} {w n : Nat} {c : PlaneWord}
    (h : ∀ p, p < WMAX → p < w → f p = g p) : laneImage f w n c = laneImage g w n c := by
  rw [laneImage, laneImage, LaneBuffer.mk.injEq]
  refine ⟨congrArg Vector.ofFn (funext fun p => ?_), rfl, rfl⟩
  split
  · next hp => exact h p p.isLt hp
  · rfl

theorem valueImage_congr {f g : Nat → Word} {n : Nat} (h : ∀ i, i < C → i < n → f i = g i) :
    valueImage f n = valueImage g n := by
  refine congrArg Vector.ofFn (funext fun i => ?_)
  split
  · next hi => exact h i i.isLt hi
  · rfl

/-! ### The adder reads its sources under the mask, below W -/

section
variable {A A' B B' : Nat → PlaneWord} {m : PlaneWord} {w : Nat}

theorem carryInto_congr (hA : ∀ p, p < w → A' p &&& m = A p &&& m)
    (hB : ∀ p, p < w → B' p &&& m = B p &&& m) {p : Nat} (hp : p ≤ w) :
    carryInto A' B' m p = carryInto A B m p := by
  induction p with
  | zero => rfl
  | succ p ih => rw [carryInto, carryInto, hA p hp, hB p hp, ih (Nat.le_of_succ_le hp)]

theorem sumPlane_congr (hA : ∀ p, p < w → A' p &&& m = A p &&& m)
    (hB : ∀ p, p < w → B' p &&& m = B p &&& m) {p : Nat} (hp : p < w) :
    sumPlane A' B' m p = sumPlane A B m p := by
  rw [sumPlane, sumPlane, hA p hp, hB p hp, carryInto_congr hA hB hp.le]

end

/-- R24 for ADD: the destination's contents from two states whose sources agree below W and N. -/
theorem lane_writeOf_add_congr {s s' : State} {d a b : LaneBuf} (hta : s'.tag a = s.tag a)
    (hA : ∀ p, p < s.tagW a →
      s'.plane a p &&& laneMask (s.tagN a) = s.plane a p &&& laneMask (s.tagN a))
    (hB : ∀ p, p < s.tagW a →
      s'.plane b p &&& laneMask (s.tagN a) = s.plane b p &&& laneMask (s.tagN a)) :
    (writeOf (.add d a b) s').lane[d] = (writeOf (.add d a b) s).lane[d] := by
  have hw : s'.tagW a = s.tagW a := by rw [State.tagW, hta, State.tagW]
  have hn : s'.tagN a = s.tagN a := by rw [State.tagN, hta, State.tagN]
  simp only [writeOf, State.lane_setLane_get, if_pos, hw, hn, carryInto_congr hA hB le_rfl]
  exact laneImage_congr fun p _ hp => sumPlane_congr hA hB hp

/-! ### The transposer reads its source below W and N -/

/-- Planes that agree under the lane mask have the same value in each of its lanes. -/
theorem toValue_congr {P P' : Nat → PlaneWord} {w n i : Nat} (hi : i < n) (hi32 : i < 32)
    (hP : ∀ p, p < w → P' p &&& laneMask n = P p &&& laneMask n) :
    toValue P' w i = toValue P w i := by
  refine BitVec.eq_of_getLsbD_eq fun b hb => ?_
  rw [toValue_getLsbD P' w i hb, toValue_getLsbD P w i hb]
  by_cases hbw : b < w
  · have hbit := congrArg (·.getLsbD i) (hP b hbw)
    simp only [BitVec.getLsbD_and, laneMask_getLsbD, hi, hi32, decide_true, Bool.and_true] at hbit
    rw [hbit]
  · simp [hbw]

/-- R24 for DECODE: the destination's contents from two states whose sources agree below W and N. -/
theorem value_writeOf_decode_congr {s s' : State} {d : ValueBuf} {l : LaneBuf}
    (htag : s'.tag l = s.tag l)
    (hP : ∀ p, p < s.tagW l →
      s'.plane l p &&& laneMask (s.tagN l) = s.plane l p &&& laneMask (s.tagN l)) :
    (writeOf (.decode d l) s').value[d] = (writeOf (.decode d l) s).value[d] := by
  have hw : s'.tagW l = s.tagW l := by rw [State.tagW, htag, State.tagW]
  have hn : s'.tagN l = s.tagN l := by rw [State.tagN, htag, State.tagN]
  simp only [writeOf, State.value_setValues_get, if_pos, hw, hn]
  exact valueImage_congr fun i hiC hi => toValue_congr hi hiC hP

/-- The checks of ADD read the tags of its sources and nothing else. -/
theorem addCheck_congr {s s' : State} {d a b : LaneBuf} (hta : s'.tag a = s.tag a)
    (htb : s'.tag b = s.tag b) : addCheck s' d a b = addCheck s d a b := by
  rw [addCheck, addCheck, hta, htb]

theorem decodeCheck_congr {s s' : State} {l : LaneBuf} (htag : s'.tag l = s.tag l) :
    decodeCheck s' l = decodeCheck s l := by
  rw [decodeCheck, decodeCheck, htag]

/-- A command whose checks find nothing ends in its write, whatever else is known of its outcome. -/
theorem eq_of_exec_of_checkOf_none {i : Instr} {s t : State} (h : exec i s = .next t)
    (hcheck : checkOf i s = none) : t = (writeOf i s).respond (answerOf i s) :=
  Host.Outcome.next.inj (h.symm.trans (exec_of_checkOf_none hcheck))

/-- Settles O46. The second state passes the checks because the first does. -/
theorem onlyLaneArrayReachesResult : Obligations.OnlyLaneArrayReachesResult := by
  constructor
  · intro s s' t t' d a b h h' hphase hta htb hA hB
    obtain ⟨hcheck, rfl⟩ := exec_ok_eq_next h hphase
    obtain rfl := eq_of_exec_of_checkOf_none h' ((addCheck_congr hta htb).trans hcheck)
    exact lane_writeOf_add_congr hta hA hB
  · intro s s' t t' d l h h' hphase htag hP
    obtain ⟨hcheck, rfl⟩ := exec_ok_eq_next h hphase
    obtain rfl := eq_of_exec_of_checkOf_none h' ((decodeCheck_congr htag).trans hcheck)
    exact value_writeOf_decode_congr htag hP

end Sys2Proof.Machine

/-! PROOFS. The block clocked edge by edge (R146, R150, R151): the edges of a command, the plane
sequencer's run of work steps, and that both end where the atomic meaning ends (R32). -/

namespace Sys2Proof.Machine

open Sys2Proof.Config (C WMAX)

/-! ### Runs of edges -/

theorem andThen_assoc (o : StepResult) (f g : State → StepResult) :
    andThen (andThen o f) g = andThen o fun t => andThen (f t) g := by
  cases o <;> rfl

theorem clockRun_append (ps qs : List Pins) (s : State) :
    clockRun (ps ++ qs) s = andThen (clockRun ps s) (clockRun qs) := by
  induction ps generalizing s with
  | nil => rfl
  | cons p ps ih =>
    rw [List.cons_append, clockRun, clockRun, andThen_assoc]
    exact congrArg (andThen _) (funext ih)

theorem clockRun_singleton (p : Pins) (s : State) : clockRun [p] s = clockEdge p s := by
  rw [clockRun]
  cases clockEdge p s <;> rfl

/-- One more edge with nothing offered. -/
theorem commandEdges_succ (c : Command) (latency : Nat) (ready : Bool) :
    commandEdges c (latency + 1) ready =
      commandEdges c latency ready ++ [Pins.offering none ready] := by
  rw [commandEdges, commandEdges, List.replicate_succ', List.cons_append]

/-! ### One edge in each phase, with `rst` low and the earlier offer kept -/

/-- R146: the acceptance edge. -/
theorem clockEdge_accepts {s : State} {p : Pins} {c : Command} (hkept : s.offerKept p = true)
    (hrst : p.rst = false) (hphase : s.phase = .idle) (hoffer : p.offer = some c) :
    clockEdge p s = .next (s.accept c) := by
  simp [clockEdge, hkept, hrst, sequencerEdge, hphase, hoffer]

theorem Pins.offering_offer (c : Option Command) (ready : Bool) :
    (Pins.offering c ready).offer = c := by
  cases c <;> rfl

theorem Pins.offering_rst (c : Option Command) (ready : Bool) :
    (Pins.offering c ready).rst = false := by
  cases c <;> rfl

/-- An edge with nothing offered, after one at which nothing was held, leaves nothing held. -/
theorem State.holdOffer_none {s : State} (h : s.held = none) (ready : Bool) :
    s.holdOffer (.offering none ready) = s := by
  rw [State.holdOffer, Pins.offering_offer, ← h]

section
variable {s t : State} {c : Command} (hheld : s.held = none) (hlatched : s.latched = some c)
  (htheld : t.held = none) (ready : Bool)
include hheld hlatched htheld

/-- R151: the check cycle. -/
theorem clockEdge_of_check (hphase : s.phase = .check) (hcheck : checkEdge c s = .next t) :
    clockEdge (.offering none ready) s = .next t := by
  simp [clockEdge, State.offerKept_of_held_none hheld, Pins.offering_rst, sequencerEdge, hphase,
    hlatched, hcheck, State.holdOffer_none htheld]

/-- R151: a work step. -/
theorem clockEdge_of_run {k : Nat} {running : PlaneWord} (hphase : s.phase = .run k running)
    (hrun : runEdge c k running s = .next t) :
    clockEdge (.offering none ready) s = .next t := by
  simp [clockEdge, State.offerKept_of_held_none hheld, Pins.offering_rst, sequencerEdge, hphase,
    hlatched, hrun, State.holdOffer_none htheld]

end

/-- R146: the edge at which a ready host takes the response. -/
theorem clockEdge_takes {s t : State} {r : Response} (hheld : s.held = none)
    (hphase : s.phase = .resp r) (htake : s.takeResponse = .next t) (htheld : t.held = none) :
    clockEdge (.offering none true) s = .next t := by
  have hready : (Pins.offering none true).rspReady = true := rfl
  simp [clockEdge, State.offerKept_of_held_none hheld, Pins.offering_rst, sequencerEdge, hphase,
    hready, htake, State.holdOffer_none htheld]

/-- The acceptance edge of a command, with no earlier offer held; what follows is the rest of the run. -/
theorem clockRun_commandEdges {s : State} (hphase : s.phase = .idle) (hheld : s.held = none)
    (c : Command) (latency : Nat) (ready : Bool) :
    clockRun (commandEdges c latency ready) s =
      clockRun (List.replicate latency (.offering none ready)) (s.accept c) := by
  rw [commandEdges, clockRun, clockEdge_accepts (State.offerKept_of_held_none hheld _)
    (Pins.offering_rst _ _) hphase (Pins.offering_offer _ _), andThen_next]

/-! ### A run of work steps -/

/-- The block `s` before work step `k`, with the running carry that enters it. -/
def State.atStep (s : State) (k : Nat) (running : PlaneWord) : State :=
  { s with phase := .run k running }

theorem advance_of_lt {k total : Nat} (h : k + 1 < total) (running : PlaneWord) (s done : State) :
    advance k total running s done = s.atStep (k + 1) running := if_pos h

theorem advance_of_last {k total : Nat} (h : k + 1 = total) (running : PlaneWord) (s done : State) :
    advance k total running s done = done := if_neg h.not_lt

/-- `c` makes `total` work steps, the storage before step `k` being that of `v k` and the carry entering
it `r k`, and ends in `done`. -/
structure Sequenced (c : Command) (total : Nat) (v : Nat → State) (r : Nat → PlaneWord)
    (done : State) : Prop where
  latched : ∀ k, (v k).latched = some c
  held : ∀ k, (v k).held = none
  done_held : done.held = none
  edge : ∀ k, k < total → runEdge c k (r k) ((v k).atStep k (r k)) =
    .next (advance k total (r (k + 1)) (v (k + 1)) done)

/-- The steps from `k` on, one edge each, end in `done`. -/
theorem Sequenced.clockRun_eq {c : Command} {total : Nat} {v : Nat → State} {r : Nat → PlaneWord}
    {done : State} (h : Sequenced c total v r done) (ready : Bool) {n k : Nat}
    (hk : k + (n + 1) = total) :
    clockRun (List.replicate (n + 1) (.offering none ready)) ((v k).atStep k (r k)) = .next done := by
  have hclock (k : Nat) (t : State) (ht : t.held = none)
      (hrun : runEdge c k (r k) ((v k).atStep k (r k)) = .next t) :
      clockEdge (.offering none ready) ((v k).atStep k (r k)) = .next t :=
    clockEdge_of_run (s := (v k).atStep k (r k)) (h.held k) (h.latched k) ht ready rfl hrun
  induction n generalizing k with
  | zero =>
    have hedge := h.edge k (by omega)
    rw [advance_of_last hk] at hedge
    rw [List.replicate_one, clockRun_singleton]
    exact hclock k done h.done_held hedge
  | succ n ih =>
    have hedge := h.edge k (by omega)
    rw [advance_of_lt (by omega)] at hedge
    rw [List.replicate_succ, clockRun, hclock k (State.atStep ..) (h.held (k + 1)) hedge, andThen_next]
    exact ih (by omega)

/-! ### The storage before each work step -/

theorem State.setLane_self (s : State) (l : LaneBuf) : s.setLane l s.lane[l] = s := by
  rw [State.setLane, Fin.getElem_fin, Vector.set_getElem_self]

theorem State.setLane_setLane (s : State) (l : LaneBuf) (b b' : LaneBuffer) :
    (s.setLane l b).setLane l b' = s.setLane l b' := by
  rw [State.setLane, State.setLane_lane, Vector.set_set]; rfl

theorem State.setValues_self (s : State) (v : ValueBuf) : s.setValues v s.value[v] = s := by
  rw [State.setValues, Fin.getElem_fin, Vector.set_getElem_self]

theorem State.setValues_setValues (s : State) (v : ValueBuf) (b b' : Vector Word C) :
    (s.setValues v b).setValues v b' = s.setValues v b' := by
  rw [State.setValues, State.setValues_value, Vector.set_set]; rfl

/-- The first `k` elements of a buffer replaced by `f 0` .. `f (k-1)`. -/
def overwriteBelow {n : Nat} (f : Nat → Word) (k : Nat) (b : Vector Word n) : Vector Word n :=
  Vector.ofFn fun i : Fin n => if i.val < k then f i.val else b[i]

section
variable {n : Nat} (f : Nat → Word) (b : Vector Word n)

theorem overwriteBelow_getElem (k : Nat) {i : Nat} (h : i < n) :
    (overwriteBelow f k b)[i] = if i < k then f i else b[i] := by
  simp [overwriteBelow]

theorem overwriteBelow_zero : overwriteBelow f 0 b = b := by
  ext i hi
  rw [overwriteBelow_getElem f b 0 hi, if_neg (Nat.not_lt_zero i)]

theorem overwriteBelow_succ (k : Nat) :
    (overwriteBelow f k b).setIfInBounds k (f k) = overwriteBelow f (k + 1) b := by
  ext i hi
  rw [Vector.getElem_setIfInBounds, overwriteBelow_getElem f b k hi,
    overwriteBelow_getElem f b (k + 1) hi]
  by_cases hik : k = i
  · subst hik
    simp
  · have hlt : i < k + 1 ↔ i < k := by omega
    simp only [if_neg hik, hlt]

end

/-- `s` after the first `k` planes `f 0` .. `f (k-1)` are written to `d`. -/
def State.withPlanes (s : State) (d : LaneBuf) (f : Nat → PlaneWord) (k : Nat) : State :=
  s.setLane d { s.lane[d] with planes := overwriteBelow f k (s.lane[d]).planes }

/-- `s` after the first `k` entries `f 0` .. `f (k-1)` are written to `d`. -/
def State.withEntries (s : State) (d : ValueBuf) (f : Nat → Word) (k : Nat) : State :=
  s.setValues d (overwriteBelow f k s.value[d])

section
variable (s : State) (d : LaneBuf) (f : Nat → PlaneWord) (k : Nat)

theorem State.withPlanes_zero : s.withPlanes d f 0 = s := by
  rw [State.withPlanes, overwriteBelow_zero]
  exact s.setLane_self d

theorem State.withPlanes_lane_self :
    (s.withPlanes d f k).lane[d] =
      { s.lane[d] with planes := overwriteBelow f k (s.lane[d]).planes } := by
  rw [State.withPlanes, State.lane_setLane_get, if_pos rfl]

theorem State.withPlanes_lane_other {l : LaneBuf} (h : d ≠ l) :
    (s.withPlanes d f k).lane[l] = s.lane[l] := by
  rw [State.withPlanes, State.lane_setLane_get, if_neg h.symm]

theorem State.setPlane_withPlanes :
    (s.withPlanes d f k).setPlane d k (f k) = s.withPlanes d f (k + 1) := by
  rw [State.setPlane, State.withPlanes_lane_self, overwriteBelow_succ]
  exact State.setLane_setLane ..

theorem State.withPlanes_plane_self {p : Nat} (hp : p < WMAX) (hpk : p < k) :
    (s.withPlanes d f k).plane d p = f p := by
  rw [State.plane_of_lt _ d hp, State.withPlanes_lane_self, overwriteBelow_getElem f _ k hp,
    if_pos hpk]

end

section
variable (s : State) (d : ValueBuf) (f : Nat → Word) (k : Nat)

theorem State.withEntries_zero : s.withEntries d f 0 = s := by
  rw [State.withEntries, overwriteBelow_zero]
  exact s.setValues_self d

theorem State.withEntries_value_self :
    (s.withEntries d f k).value[d] = overwriteBelow f k s.value[d] := by
  rw [State.withEntries, State.value_setValues_get, if_pos rfl]

theorem State.setEntry_withEntries :
    (s.withEntries d f k).setEntry d k (f k) = s.withEntries d f (k + 1) := by
  rw [State.setEntry, State.withEntries_value_self, overwriteBelow_succ]
  exact State.setValues_setValues ..

theorem State.withEntries_entry_self {i : Nat} (hi : i < C) (hik : i < k) :
    (s.withEntries d f k).entry d i = f i := by
  rw [State.entry_of_lt _ d hi, State.withEntries_value_self, overwriteBelow_getElem f _ k hi,
    if_pos hik]

end

/-! ### The last work step completes as the atomic command does (R151) -/

theorem finishLane_withPlanes (s : State) (d : LaneBuf) (f : Nat → PlaneWord) (w n : Nat)
    (c : PlaneWord) :
    finishLane d w n c (s.withPlanes d f w) = (s.setLane d (laneImage f w n c)).respond 0 := by
  have himage : laneImage ((s.withPlanes d f w).plane d) w n c = laneImage f w n c :=
    laneImage_congr fun p hp hpw => s.withPlanes_plane_self d f w hp hpw
  rw [finishLane, himage, State.withPlanes, State.setLane_setLane]

theorem finishValues_withEntries (s : State) (d : ValueBuf) (f : Nat → Word) (n : Nat) :
    finishValues d n (s.withEntries d f n) = (s.setValues d (valueImage f n)).respond 0 := by
  have himage : valueImage ((s.withEntries d f n).entry d) n = valueImage f n :=
    valueImage_congr fun i hi hin => s.withEntries_entry_self d f n hi hin
  rw [finishValues, himage, State.withEntries, State.setValues_setValues]

/-- The outcome of a work step depends on the completed state only at the last step. -/
theorem advance_congr_done {k total : Nat} (hk : k < total) {running : PlaneWord}
    {s done done' : State} (h : k + 1 = total → done = done') :
    advance k total running s done = advance k total running s done' := by
  unfold advance
  split
  · rfl
  · exact h (by omega)

/-- One work step of ENCODE or ADD: plane `k` of `d` is written, and after the last the lane buffer is
completed with the carry `g w`. -/
theorem advance_finishLane (s : State) (d : LaneBuf) (f g : Nat → PlaneWord) (n : Nat) {k w : Nat}
    (hk : k < w) (running : PlaneWord) :
    let t := ((s.withPlanes d f k).atStep k running).setPlane d k (f k)
    advance k w (g (k + 1)) t (finishLane d w n (g (k + 1)) t) =
      advance k w (g (k + 1)) (s.withPlanes d f (k + 1))
        ((s.setLane d (laneImage f w n (g w))).respond 0) := by
  intro t
  have ht : t = (s.withPlanes d f (k + 1)).atStep k running :=
    congrArg (State.atStep · k running) (s.setPlane_withPlanes d f k)
  rw [ht]
  refine advance_congr_done hk fun hlast => ?_
  subst hlast
  exact finishLane_withPlanes s d f (k + 1) n (g (k + 1))

/-- One work step of DECODE: entry `k` of `d` is written, and after the last the value buffer is
completed. -/
theorem advance_finishValues (s : State) (d : ValueBuf) (f : Nat → Word) {k n : Nat} (hk : k < n)
    (running running' : PlaneWord) :
    let t := ((s.withEntries d f k).atStep k running).setEntry d k (f k)
    advance k n running' t (finishValues d n t) =
      advance k n running' (s.withEntries d f (k + 1))
        ((s.setValues d (valueImage f n)).respond 0) := by
  intro t
  have ht : t = (s.withEntries d f (k + 1)).atStep k running :=
    congrArg (State.atStep · k running) (s.setEntry_withEntries d f k)
  rw [ht]
  refine advance_congr_done hk fun hlast => ?_
  subst hlast
  exact finishValues_withEntries s d f (k + 1)

/-! ### The commands with work steps, as sequences -/

/-- R150: a command that raises an error has no work steps. -/
theorem checkOf_none_of_workSteps {i : Instr} {s : State} (h : workSteps i s ≠ 0) :
    checkOf i s = none := by
  cases i with
  | encode | decode | add =>
    by_contra hcheck
    exact h (if_neg (mt Option.isNone_iff_eq_none.mp hcheck))
  | nop | wval | rval | wplane | rplane | lshape | rtag | rcarry | rstat | clrstat | rdcfg =>
    exact absurd rfl h

theorem runEdge_of_ok {c : Command} {i : Instr} (h : decodeCommand c.word c.data = .ok i) (k : Nat)
    (running : PlaneWord) (s : State) : runEdge c k running s = workEdge i k running s := by
  simp only [runEdge, h]

section
variable {s : State} {c : Command} (hlatched : s.latched = some c) (hheld : s.held = none)
include hlatched hheld

theorem sequenced_encode {d : LaneBuf} {src : ValueBuf} {w n : Nat} {x : Bool}
    (hdec : decodeCommand c.word c.data = .ok (.encode d src w n x)) :
    Sequenced c w (s.withPlanes d (toLane (s.entry src) n)) (fun _ => 0)
      ((writeOf (.encode d src w n x) s).respond 0) where
  latched _ := hlatched
  held _ := hheld
  done_held := hheld
  edge k hk := by
    rw [runEdge_of_ok hdec]
    exact congrArg Host.Outcome.next (advance_finishLane s d _ (fun _ => 0) n hk 0)

theorem sequenced_decode {d : ValueBuf} {src : LaneBuf}
    (hdec : decodeCommand c.word c.data = .ok (.decode d src)) :
    Sequenced c (s.tagN src) (s.withEntries d (toValue (s.plane src) (s.tagW src))) (fun _ => 0)
      ((writeOf (.decode d src) s).respond 0) where
  latched _ := hlatched
  held _ := hheld
  done_held := hheld
  edge k hk := by
    rw [runEdge_of_ok hdec]
    exact congrArg Host.Outcome.next (advance_finishValues s d _ hk 0 0)

/-- ADD writes none of its sources, so every step reads them as they were, and the carry entering step `k`
is that of the chain of R81. -/
theorem sequenced_add {d a b : LaneBuf} (hda : d ≠ a) (hdb : d ≠ b)
    (hdec : decodeCommand c.word c.data = .ok (.add d a b)) :
    Sequenced c (s.tagW a)
      (s.withPlanes d (sumPlane (s.plane a) (s.plane b) (laneMask (s.tagN a))))
      (carryInto (s.plane a) (s.plane b) (laneMask (s.tagN a)))
      ((writeOf (.add d a b) s).respond 0) where
  latched _ := hlatched
  held _ := hheld
  done_held := hheld
  edge k hk := by
    set f := sumPlane (s.plane a) (s.plane b) (laneMask (s.tagN a))
    set g := carryInto (s.plane a) (s.plane b) (laneMask (s.tagN a))
    have hlane {l : LaneBuf} (hl : d ≠ l) :
        ((s.withPlanes d f k).atStep k (g k)).lane[l] = s.lane[l] :=
      s.withPlanes_lane_other d f k hl
    have hstep := advance_finishLane s d f g (s.tagN a) hk (g k)
    rw [runEdge_of_ok hdec]
    simp only [workEdge, State.plane, State.tagW, State.tagN, State.tag, hlane hda, hlane hdb]
    exact congrArg Host.Outcome.next hstep

/-- R151: a command with work steps makes them from the state it was accepted in, with no running carry,
and ends in its write and its answer. -/
theorem exists_sequenced {i : Instr} (hdec : decodeCommand c.word c.data = .ok i)
    (hsteps : workSteps i s ≠ 0) :
    ∃ v r, v 0 = s ∧ r 0 = 0 ∧
      ∃ done, exec i s = .next done ∧ Sequenced c (workSteps i s) v r done := by
  have hcheck := checkOf_none_of_workSteps hsteps
  have hexec := exec_of_checkOf_none hcheck
  cases i with
  | encode d src w n x =>
    have htotal : workSteps (.encode d src w n x) s = w :=
      if_pos (Option.isNone_iff_eq_none.mpr hcheck)
    rw [htotal]
    exact ⟨_, _, s.withPlanes_zero d _, rfl, _, hexec, sequenced_encode hlatched hheld hdec⟩
  | decode d src =>
    have htotal : workSteps (.decode d src) s = s.tagN src :=
      if_pos (Option.isNone_iff_eq_none.mpr hcheck)
    rw [htotal]
    exact ⟨_, _, s.withEntries_zero d _, rfl, _, hexec, sequenced_decode hlatched hheld hdec⟩
  | add d a b =>
    obtain ⟨hda, hdb⟩ := dest_ne_of_addCheck hcheck
    have htotal : workSteps (.add d a b) s = s.tagW a :=
      if_pos (Option.isNone_iff_eq_none.mpr hcheck)
    rw [htotal]
    exact ⟨_, _, s.withPlanes_zero d _, rfl, _, hexec, sequenced_add hlatched hheld hda hdb hdec⟩
  | nop | wval | rval | wplane | rplane | lshape | rtag | rcarry | rstat | clrstat | rdcfg =>
    exact absurd rfl hsteps

/-! ### A command from its acceptance to its response -/

/-- R150, R151: the edges of a command just accepted, by whether it has work steps. -/
theorem clockRun_busy (hphase : s.phase = .check) (ready : Bool) :
    clockRun (List.replicate (1 + commandSteps c s) (.offering none ready)) s =
      executeCommand c s := by
  cases hsteps : commandSteps c s with
  | zero =>
    obtain ⟨t, hexec, htheld⟩ := executeCommand_held_none hheld c
    have hcheck : checkEdge c s = .next t := by rw [checkEdge, if_pos hsteps, hexec]
    rw [List.replicate_one, clockRun_singleton, hexec]
    exact clockEdge_of_check hheld hlatched htheld ready hphase hcheck
  | succ n =>
    have hcheck : checkEdge c s = .next (s.atStep 0 0) := if_neg (by omega)
    have hclock := clockEdge_of_check (t := s.atStep 0 0) hheld hlatched hheld ready hphase hcheck
    cases hdec : decodeCommand c.word c.data with
    | error err => simp [commandSteps, hdec] at hsteps
    | ok i =>
      have hwork : workSteps i s = n + 1 := by rw [← hsteps, commandSteps, hdec]
      obtain ⟨v, r, hv, hr, done, hexec, hseq⟩ :=
        exists_sequenced hlatched hheld hdec (by omega)
      have hrun := hseq.clockRun_eq ready (n := n) (k := 0) (by omega)
      rw [hv, hr] at hrun
      rw [Nat.add_comm, List.replicate_succ, clockRun, hclock, andThen_next, hrun,
        executeCommand_of_ok hdec, hexec]

end

/-- The work steps of a command read the buffers and the parameters only. -/
theorem commandSteps_accept (c c' : Command) (s : State) :
    commandSteps c (s.accept c') = commandSteps c s := rfl

theorem commandSteps_inbox (c : Command) (s : State) (rest : List HostInput) :
    commandSteps c { s with inbox := rest } = commandSteps c s := rfl

/-- Settles O5. -/
theorem offerInIdleIsLatched : Obligations.OfferInIdleIsLatched := by
  intro s p c hkept hrst hphase hoffer
  exact ⟨by simp [State.cmdReady, hphase], s.accept c, clockEdge_accepts hkept hrst hphase hoffer,
    rfl, rfl, rfl, rfl, rfl, rfl, rfl, rfl⟩

/-- Settles O13. -/
theorem stepRunsDecodedCommand : Obligations.StepRunsDecodedCommand := by
  intro s c rest i hphase hheld hin hdec
  rw [step_of_command hphase hheld hin, transact, executeCommand_of_ok hdec]

/-- Settles O48: the acceptance edge, then the check cycle and the work steps. -/
theorem clockedCommandEqualsAtomicCommand : Obligations.ClockedCommandEqualsAtomicCommand := by
  intro s c ready hphase hheld
  rw [clockRun_commandEdges hphase hheld, ← commandSteps_accept c c s]
  exact clockRun_busy rfl rfl rfl ready

/-- The edge after a command's latency takes its response as `State.takeResponse` does. -/
theorem clockEdge_takes_executeCommand {c : Command} {s : State} (hheld : s.held = none) :
    andThen (executeCommand c s) (clockEdge (.offering none true)) =
      andThen (executeCommand c s) State.takeResponse := by
  obtain ⟨t, r, hexec, hresp, _⟩ := executeCommand_accounted c s
  obtain ⟨htake, htheld, _⟩ := takeResponse_of_executeCommand hexec hresp
  have hnone : t.held = none := htheld.trans hheld
  rw [hexec, andThen_next, andThen_next, clockEdge_takes hnone hresp htake hnone, htake]

/-- Settles O49, from O48 and the edge at which the response is taken. -/
theorem stepEqualsClockedCommand : Obligations.StepEqualsClockedCommand := by
  intro s c rest hphase hheld hin
  rw [step_of_command hphase hheld hin, transact, commandEdges_succ, clockRun_append,
    ← commandSteps_inbox c s rest,
    clockedCommandEqualsAtomicCommand { s with inbox := rest } c true hphase hheld,
    funext (clockRun_singleton _), clockEdge_takes_executeCommand rfl]

end Sys2Proof.Machine

/-! PROOFS. What a command does to the storage: it writes its destination and no other buffer (R43, R45),
and issued again it changes nothing more (R43). With them, the edges at which a response is held and taken
(R146). -/

namespace Sys2Proof.Machine

/-! ### A command writes its destination only -/

theorem writeOf_value_get {i : Instr} {v : ValueBuf} (h : valueDest i ≠ some v) (s : State) :
    (writeOf i s).value[v] = s.value[v] := by
  cases i with
  | wval d | decode d =>
    have hd : v ≠ d := fun hv => h (congrArg some hv.symm)
    exact (s.value_setValues_get d v _).trans (if_neg hd)
  | _ => rfl

theorem writeOf_lane_get {i : Instr} {l : LaneBuf} (h : laneDest i ≠ some l) (s : State) :
    (writeOf i s).lane[l] = s.lane[l] := by
  cases i with
  | wplane d | lshape d | encode d | add d =>
    have hd : l ≠ d := fun hl => h (congrArg some hl.symm)
    exact (s.lane_setLane_get d l _).trans (if_neg hd)
  | _ => rfl

/-- Settles O19: an error writes no buffer, and a command without one makes its write. -/
theorem onlyDestinationIsWritten : Obligations.OnlyDestinationIsWritten := by
  intro i s t h
  rcases exec_eq_next h with ⟨e, _, _, rfl⟩ | ⟨_, rfl⟩
  · exact ⟨fun _ _ => rfl, fun _ _ => rfl⟩
  · exact ⟨fun _ hv => writeOf_value_get hv s, fun _ hl => writeOf_lane_get hl s⟩

/-! ### What a command reads, it leaves as it was -/

/-- The checks read the parameters and the buffers, so neither a response nor ERRACC reaches them. -/
theorem checkOf_congr {s t : State} (hparams : t.params = s.params) (hvalue : t.value = s.value)
    (hlane : t.lane = s.lane) (i : Instr) : checkOf i t = checkOf i s := by
  cases s; cases t
  cases hparams; cases hvalue; cases hlane
  cases i <;> rfl

theorem writeOf_respond (i : Instr) (s : State) (x : Word) :
    writeOf i (s.respond x) = (writeOf i s).respond x := by
  cases i <;> rfl

theorem answerOf_respond (i : Instr) (s : State) (x : Word) :
    answerOf i (s.respond x) = answerOf i s := by
  cases i <;> rfl

/-- A command that answers with what it read writes nothing, and one that writes answers 0. -/
theorem answerOf_writeOf (i : Instr) (s : State) : answerOf i (writeOf i s) = answerOf i s := by
  cases i <;> rfl

/-- ADD leaves both its sources as they were when it passes its checks (R82). -/
theorem lane_writeOf_add_sources {s : State} {d a b : LaneBuf} (h : addCheck s d a b = none) :
    (writeOf (.add d a b) s).lane[a] = s.lane[a] ∧ (writeOf (.add d a b) s).lane[b] = s.lane[b] := by
  obtain ⟨hda, hdb⟩ := dest_ne_of_addCheck h
  have hkeep {l : LaneBuf} (hl : d ≠ l) : (writeOf (.add d a b) s).lane[l] = s.lane[l] :=
    writeOf_lane_get (i := .add d a b) (fun hd => hl (Option.some.inj hd)) s
  exact ⟨hkeep hda, hkeep hdb⟩

/-- A command that passed its checks passes them again after its write. -/
theorem checkOf_writeOf {i : Instr} {s : State} (h : checkOf i s = none) :
    checkOf i (writeOf i s) = none := by
  cases i with
  | add d a b =>
    obtain ⟨ha, hb⟩ := lane_writeOf_add_sources h
    exact (addCheck_congr (congrArg LaneBuffer.tag ha) (congrArg LaneBuffer.tag hb)).trans h
  | _ => exact h

/-! ### Every operation done twice -/

theorem accumulate_accumulate (acc : BitVec 16) (e : ErrCode) :
    accumulate (accumulate acc e) e = accumulate acc e := by
  rw [accumulate, accumulate, BitVec.or_assoc, BitVec.or_self]

theorem State.raise_raise (s : State) (e : ErrCode) : (s.raise e).raise e = s.raise e := by
  rw [State.raise, State.raise_erracc, accumulate_accumulate]; rfl

theorem State.setEntry_setEntry (s : State) (v : ValueBuf) (i : Nat) (x : Word) :
    (s.setEntry v i x).setEntry v i x = s.setEntry v i x := by
  simp only [State.setEntry, State.setValues_setValues, State.value_setValues_get, if_pos,
    Vector.setIfInBounds_setIfInBounds]

theorem State.setPlane_setPlane (s : State) (l : LaneBuf) (p : Nat) (x : PlaneWord) :
    (s.setPlane l p x).setPlane l p x = s.setPlane l p x := by
  simp only [State.setPlane, State.setLane_setLane, State.lane_setLane_get, if_pos,
    Vector.setIfInBounds_setIfInBounds]

theorem State.setShape_setShape (s : State) (l : LaneBuf) (w n : Nat) (c : PlaneWord) :
    (s.setShape l w n c).setShape l w n c = s.setShape l w n c := by
  simp only [State.setShape, State.setLane_setLane, State.lane_setLane_get, if_pos]

theorem State.plane_congr {s t : State} {l : LaneBuf} (h : t.lane[l] = s.lane[l]) (p : Nat) :
    t.plane l p = s.plane l p := by
  rw [State.plane, h, State.plane]

/-- A lane buffer written with the contents it holds. -/
theorem State.setLane_eq_self_of_lane_get {s : State} {l : LaneBuf} {b : LaneBuffer}
    (h : (s.setLane l b).lane[l] = s.lane[l]) : s.setLane l b = s := by
  rw [State.lane_setLane_get, if_pos rfl] at h
  rw [h, State.setLane_self]

/-- A write made twice is the write made once: only ADD reads the file it writes, and not its
destination. -/
theorem writeOf_writeOf {i : Instr} {s : State} (h : checkOf i s = none) :
    writeOf i (writeOf i s) = writeOf i s := by
  cases i with
  | wval d idx data => exact s.setEntry_setEntry d idx data
  | wplane d p data => exact s.setPlane_setPlane d p data
  | lshape d w n => exact s.setShape_setShape d w n 0
  | encode d src w n t => exact s.setLane_setLane d _ _
  | decode d src => exact s.setValues_setValues d _ _
  | add d a b =>
    obtain ⟨ha, hb⟩ := lane_writeOf_add_sources h
    refine State.setLane_eq_self_of_lane_get (lane_writeOf_add_congr (congrArg LaneBuffer.tag ha)
      (fun p _ => ?_) fun p _ => ?_)
    · rw [State.plane_congr ha p]
    · rw [State.plane_congr hb p]
  | _ => rfl

/-- Settles O21: the checks find again what they found, an error adds no second bit to ERRACC, and a
write and its answer repeat. -/
theorem commandsAreIdempotent : Obligations.CommandsAreIdempotent := by
  intro i s t h
  rcases exec_eq_next h with ⟨e, _, hcheck, rfl⟩ | ⟨hcheck, rfl⟩
  · have hagain : checkOf i (s.raise e) = some e := (checkOf_congr rfl rfl rfl i).trans hcheck
    rw [exec_eq_guarded, hagain, guarded_some, State.raise_raise]
  · have hagain : checkOf i ((writeOf i s).respond (answerOf i s)) = none :=
      (checkOf_congr rfl rfl rfl i).trans (checkOf_writeOf hcheck)
    rw [exec_of_checkOf_none hagain, writeOf_respond, writeOf_writeOf hcheck, answerOf_respond,
      answerOf_writeOf]
    rfl

/-! ### A pending response at an edge (R146) -/

section
variable {s : State} {p : Pins} {r : Response} (hkept : s.offerKept p = true) (hrst : p.rst = false)
  (hphase : s.phase = .resp r)
include hkept hrst hphase

/-- A host that is not ready leaves the response standing. -/
theorem clockEdge_holds_response (hready : p.rspReady = false) :
    clockEdge p s = .next (s.holdOffer p) := by
  simp [clockEdge, hkept, hrst, sequencerEdge, hphase, hready]

/-- A host that is ready takes it, whatever it offers at the same edge. -/
theorem clockEdge_takes_response (hr : r.err.toNat ≤ 8) (hready : p.rspReady = true) :
    clockEdge p s = .next
      ({ s with phase := .idle, latched := none, outbox := s.outbox ++ [r] }.holdOffer p) := by
  simp [clockEdge, hkept, hrst, sequencerEdge, hphase, hready, s.takeResponse_of_resp hphase hr]

end

/-- Settles O6. -/
theorem responseIsHeldUntilTaken : Obligations.ResponseIsHeldUntilTaken := by
  intro s p r hkept hrst hphase hr
  cases hready : p.rspReady with
  | false =>
    refine ⟨_, clockEdge_holds_response hkept hrst hphase hready, rfl, rfl, rfl, fun _ => ?_, nofun⟩
    exact ⟨by simp only [State.rspPort, State.holdOffer_phase, hphase], rfl, rfl, rfl⟩
  | true =>
    refine ⟨_, clockEdge_takes_response hkept hrst hphase hr.1 hready, rfl, rfl, rfl, nofun, ?_⟩
    exact fun _ => ⟨rfl, rfl, rfl, rfl⟩

end Sys2Proof.Machine

/-! PROOFS. The encoding and its strict decoder are inverse to each other (R50 to R53); what the command
word and the data word can reach (R52, R56, R59); the assembler reads back what the disassembler prints
(R62 to R64). -/

namespace Sys2Proof.Machine

open Sys2Proof.Config (C)

/-! ### The operand fields of a row (R51) -/

/-- A 1 for every bit that an opcode leaves to its operands: the fields its row uses, written whole. -/
def operandBits : Opcode → Word
  | .nop | .rstat | .clrstat | .rdcfg => packFields 0 0 0 0 0 0 0 0
  | .wval | .wplane => packFields 0 (.allOnes 2) 0 0 0 0 0 (.allOnes 6)
  | .rval | .rplane => packFields 0 0 (.allOnes 2) 0 0 0 0 (.allOnes 6)
  | .lshape => packFields 0 (.allOnes 2) 0 0 (.allOnes 6) (.allOnes 6) 0 0
  | .rtag | .rcarry => packFields 0 0 (.allOnes 2) 0 0 0 0 0
  | .encode => packFields 0 (.allOnes 2) (.allOnes 2) 0 (.allOnes 6) (.allOnes 6) (.allOnes 1) 0
  | .decode => packFields 0 (.allOnes 2) (.allOnes 2) 0 0 0 0 0
  | .add => packFields 0 (.allOnes 2) (.allOnes 2) (.allOnes 2) 0 0 0 0

theorem operandBits_eq_not_maskWord (op : Opcode) : operandBits op = ~~~op.maskWord := by
  cases op <;> decide

theorem matchWord_eq_packFields (op : Opcode) :
    op.matchWord = packFields op.number 0 0 0 0 0 0 0 := by
  cases op <;> decide

theorem matchWord_and_maskWord (op : Opcode) : op.matchWord &&& op.maskWord = op.matchWord := by
  cases op <;> decide

/-- A word cut down to some bits of its operand fields, with OP put in, is those fields packed. -/
theorem and_packFields_or (cmd : Word) (op : BitVec 4) (d s1 s2 : BitVec 2) (w n : BitVec 6)
    (t : BitVec 1) (idx : BitVec 6) :
    (cmd &&& packFields 0#4 d s1 s2 w n t idx) ||| packFields op 0#2 0#2 0#2 0#6 0#6 0#1 0#6 =
      packFields op (cmd.extractLsb' 26 2 &&& d) (cmd.extractLsb' 24 2 &&& s1)
        (cmd.extractLsb' 22 2 &&& s2) (cmd.extractLsb' 16 6 &&& w) (cmd.extractLsb' 10 6 &&& n)
        (cmd.extractLsb' 9 1 &&& t) (cmd.extractLsb' 0 6 &&& idx) := by
  apply BitVec.eq_of_getLsbD_eq
  intro i hi
  simp only [packFields, BitVec.getLsbD_or, BitVec.getLsbD_and, BitVec.getLsbD_append]
  interval_cases i <;> simp

/-! ### A field read and written again -/

theorem bufferBits_fieldD (cmd : Word) : bufferBits (fieldD cmd) = cmd.extractLsb' 26 2 :=
  bufferBits_toFin _

theorem bufferBits_fieldS1 (cmd : Word) : bufferBits (fieldS1 cmd) = cmd.extractLsb' 24 2 :=
  bufferBits_toFin _

theorem bufferBits_fieldS2 (cmd : Word) : bufferBits (fieldS2 cmd) = cmd.extractLsb' 22 2 :=
  bufferBits_toFin _

theorem ofNat_fieldW (cmd : Word) : BitVec.ofNat 6 (fieldW cmd) = cmd.extractLsb' 16 6 :=
  (BitVec.ofNat_toNat 6 _).trans (BitVec.setWidth_eq _)

theorem ofNat_fieldN (cmd : Word) : BitVec.ofNat 6 (fieldN cmd) = cmd.extractLsb' 10 6 :=
  (BitVec.ofNat_toNat 6 _).trans (BitVec.setWidth_eq _)

theorem ofNat_fieldIDX (cmd : Word) : BitVec.ofNat 6 (fieldIDX cmd) = cmd.extractLsb' 0 6 :=
  (BitVec.ofNat_toNat 6 _).trans (BitVec.setWidth_eq _)

theorem ofBool_fieldT (cmd : Word) : BitVec.ofBool (fieldT cmd) = cmd.extractLsb' 9 1 := by
  apply BitVec.eq_of_getLsbD_eq
  intro i hi
  obtain rfl : i = 0 := by omega
  simp [fieldT]

theorem fits6_toNat (x : BitVec 6) : fits6 x.toNat = true := decide_eq_true x.isLt

/-! ### Encoding what a row spells, and spelling what was encoded -/

/-- The encoder keeps of a word the operand fields of the row that spelled the command, and writes the
match word on every other bit. -/
theorem encodeWord_assemble (op : Opcode) (cmd data : Word) :
    encodeWord (op.assemble cmd data) = (cmd &&& operandBits op) ||| op.matchWord := by
  rw [matchWord_eq_packFields]
  cases op <;>
    simp only [operandBits, and_packFields_or, Opcode.assemble, encodeWord, Instr.opcode,
      bufferBits_fieldD, bufferBits_fieldS1, bufferBits_fieldS2, ofNat_fieldW, ofNat_fieldN,
      ofNat_fieldIDX, ofBool_fieldT, BitVec.and_allOnes, BitVec.ofNat_eq_ofNat, BitVec.and_zero]

/-- A word that its row selects loses nothing. -/
theorem encodeWord_assemble_of_match {op : Opcode} {cmd : Word} (data : Word)
    (h : cmd &&& op.maskWord = op.matchWord) : encodeWord (op.assemble cmd data) = cmd := by
  rw [encodeWord_assemble, operandBits_eq_not_maskWord, ← h, BitVec.or_comm,
    ← BitVec.and_or_distrib_left, BitVec.or_not_self, BitVec.and_allOnes]

theorem assemble_wellFormed (op : Opcode) (cmd data : Word) :
    (op.assemble cmd data).wellFormed = true := by
  cases op with
  | wval | rval | wplane | rplane => exact fits6_toNat _
  | lshape | encode => exact Bool.and_eq_true_iff.mpr ⟨fits6_toNat _, fits6_toNat _⟩
  | nop | rtag | decode | add | rcarry | rstat | clrstat | rdcfg => rfl

/-- A number that fits its field is read back from it. -/
theorem toNat_ofNat_of_fits6 {k : Nat} (h : fits6 k = true) : (BitVec.ofNat 6 k).toNat = k :=
  Nat.mod_eq_of_lt (of_decide_eq_true h)

/-- The row of a well-formed command spells it from the words the encoder writes. -/
theorem assemble_encode {i : Instr} (h : i.wellFormed = true) :
    i.opcode.assemble (encodeWord i) (encodeData i) = i := by
  cases i with
  | wval | rval | wplane | rplane =>
    simp [Instr.opcode, Opcode.assemble, encodeWord, encodeData, toFin_bufferBits,
      toNat_ofNat_of_fits6 h, -BitVec.toNat_ofNat]
  | lshape d w n | encode d s w n t =>
    obtain ⟨hw, hn⟩ := Bool.and_eq_true_iff.mp h
    simp [Instr.opcode, Opcode.assemble, encodeWord, toFin_bufferBits, toNat_ofNat_of_fits6 hw,
      toNat_ofNat_of_fits6 hn, -BitVec.toNat_ofNat]
  | rtag | decode | add | rcarry =>
    simp [Instr.opcode, Opcode.assemble, encodeWord, toFin_bufferBits]
  | nop | rstat | clrstat | rdcfg => rfl

theorem opcodeOf_fieldOP_encodeWord (i : Instr) :
    opcodeOf (fieldOP (encodeWord i)) = some i.opcode := by
  cases i <;> exact (fieldOP_opcodeOf_packed ..).2

/-- The word of a well-formed command is selected by the command's row: it is what the row makes of
itself, so its fixed bits are the match word's. -/
theorem encodeWord_and_maskWord {i : Instr} (h : i.wellFormed = true) :
    encodeWord i &&& i.opcode.maskWord = i.opcode.matchWord := by
  have hself : encodeWord i = (encodeWord i &&& operandBits i.opcode) ||| i.opcode.matchWord := by
    rw [← encodeWord_assemble _ _ (encodeData i), assemble_encode h]
  rw [hself, operandBits_eq_not_maskWord, BitVec.and_or_distrib_right, matchWord_and_maskWord]
  simp only [BitVec.and_assoc, BitVec.not_and_self, BitVec.ofNat_eq_ofNat, BitVec.and_zero,
    BitVec.zero_or]

/-- Settles O8. -/
theorem decodingEncodedCommandGivesItBack : Obligations.DecodingEncodedCommandGivesItBack :=
  fun i h => decodeCommand_eq_ok.mpr
    ⟨i.opcode, opcodeOf_fieldOP_encodeWord i, encodeWord_and_maskWord h, (assemble_encode h).symm⟩

/-- Settles O9. -/
theorem encodingDecodedWordGivesItBack : Obligations.EncodingDecodedWordGivesItBack := by
  intro cmd data i h
  obtain ⟨op, _, hmatch, rfl⟩ := decodeCommand_eq_ok.mp h
  exact ⟨assemble_wellFormed op cmd data, encodeWord_assemble_of_match data hmatch⟩

/-! ### Match and mask select (R51) -/

/-- A row that selects a word is the row its OP field names. -/
theorem opcodeOf_fieldOP_of_match {op : Opcode} {cmd : Word}
    (h : cmd &&& op.maskWord = op.matchWord) : opcodeOf (fieldOP cmd) = some op := by
  rw [← encodeWord_assemble_of_match 0 h, opcodeOf_fieldOP_encodeWord, opcode_assemble]

/-- A word that a row selects decodes to the command the row spells. -/
theorem decodeCommand_of_match {op : Opcode} {cmd : Word} (data : Word)
    (h : cmd &&& op.maskWord = op.matchWord) :
    decodeCommand cmd data = .ok (op.assemble cmd data) :=
  decodeCommand_eq_ok.mpr ⟨op, opcodeOf_fieldOP_of_match h, h, rfl⟩

/-- Settles O10. -/
theorem matchAndMaskSelectOpcode : Obligations.MatchAndMaskSelectOpcode := by
  intro cmd data op
  constructor
  · exact fun h => ⟨_, decodeCommand_of_match data h, opcode_assemble op cmd data⟩
  · rintro ⟨i, hi, rfl⟩
    obtain ⟨op, _, hmatch, rfl⟩ := decodeCommand_eq_ok.mp hi
    rwa [opcode_assemble]

/-! ### Errors raised (R121) -/

theorem raises_raise (s : State) (e : ErrCode) : Raises s (s.raise e) e where
  completes := completes_raise s e
  value := rfl
  lane := rfl
  erracc _ hk := accumulate_getLsbD s.erracc e hk

theorem exec_raises {i : Instr} {s : State} {e : ErrCode} (h : checkOf i s = some e) :
    ∃ t, exec i s = .next t ∧ Raises s t e :=
  ⟨s.raise e, by rw [exec_eq_guarded, h, guarded_some], raises_raise s e⟩

/-- Settles O11. -/
theorem unselectedWordRaisesIllegal : Obligations.UnselectedWordRaisesIllegal := by
  intro s c hnone
  cases hdec : decodeCommand c.word c.data with
  | error err => exact ⟨_, executeCommand_of_error hdec s, raises_raise s .illegal⟩
  | ok i =>
    obtain ⟨op, _, hmatch, _⟩ := decodeCommand_eq_ok.mp hdec
    exact absurd hmatch (hnone op)

/-- Settles O28. -/
theorem indexOutOfRangeRaises : Obligations.IndexOutOfRangeRaises :=
  ⟨fun _ d idx x h => exec_raises (i := .wval d idx x) (checkIndex_of_le h),
    fun _ v idx h => exec_raises (i := .rval v idx) (checkIndex_of_le h),
    fun _ d p x h => exec_raises (i := .wplane d p x) (checkIndex_of_le h),
    fun _ l p h => exec_raises (i := .rplane l p) (checkIndex_of_le h)⟩

theorem checkShape_of_gt (params : Params) (w : Nat) {n : Nat} (h : C < n) :
    checkShape params w n = some .capacity := if_pos h

theorem checkShape_of_not_mem {params : Params} {w n : Nat} (hn : n ≤ C)
    (hw : w ∉ params.widthSet) : checkShape params w n = some .width := by
  rw [checkShape, if_neg (Nat.not_lt.mpr hn), if_neg hw]

theorem encodeCheck_of_checkShape {s : State} {w n : Nat} {e : ErrCode}
    (h : checkShape s.params w n = some e) (src : ValueBuf) (t : Bool) :
    encodeCheck s src w n t = some e := by
  simp only [encodeCheck, h]

/-- LSHAPE and ENCODE raise what the shape check that they share finds. -/
theorem shapeError_raises {s : State} {w n : Nat} {e : ErrCode}
    (h : checkShape s.params w n = some e) (d : LaneBuf) (v : ValueBuf) (x : Bool) :
    (∃ t, exec (.lshape d w n) s = .next t ∧ Raises s t e) ∧
      ∃ t, exec (.encode d v w n x) s = .next t ∧ Raises s t e :=
  ⟨exec_raises (i := .lshape d w n) h,
    exec_raises (i := .encode d v w n x) (encodeCheck_of_checkShape h v x)⟩

/-- Settles O30. -/
theorem illegalShapeRaises : Obligations.IllegalShapeRaises :=
  fun s d v w _ x => ⟨fun h => shapeError_raises (checkShape_of_gt s.params w h) d v x,
    fun hn hw => shapeError_raises (checkShape_of_not_mem hn hw) d v x⟩

/-! ### Responses, and what the data word reaches (R59, R120) -/

/-- Settles O17. -/
theorem everyCommandResponds : Obligations.EveryCommandResponds := by
  intro i s
  obtain ⟨t, hexec, heffect⟩ := exec_effect i s
  obtain ⟨e, x, hdone, hlegal⟩ := heffect.completes
  exact ⟨t, e, x, hexec, hdone, hlegal⟩

/-- The response a command word leaves pending is one of R59 and R120. -/
theorem executeCommand_response_legal {c : Command} {s t : State} {r : Response}
    (h : executeCommand c s = .next t) (hphase : t.phase = .resp r) : Response.Legal r := by
  obtain ⟨u, hu, heffect⟩ := executeCommand_effect c s
  obtain rfl : u = t := Host.Outcome.next.inj (hu.symm.trans h)
  obtain ⟨e, x, hdone, hlegal⟩ := heffect.completes
  obtain rfl : r = ⟨e.code, x⟩ := Phase.resp.inj (hphase.symm.trans hdone.phase)
  exact hlegal

/-- A command word that completes with OK spells a command of the row its OP names, whose checks found
nothing and whose write and answer were made. -/
theorem executeCommand_ok_eq_next {c : Command} {s t : State} {r : Response}
    (h : executeCommand c s = .next t) (hphase : t.phase = .resp r) (hr : r.err = 0) :
    ∃ op : Opcode, fieldOP c.word = op.number ∧ checkOf (op.assemble c.word c.data) s = none ∧
      t = (writeOf (op.assemble c.word c.data) s).respond (answerOf (op.assemble c.word c.data) s) := by
  obtain ⟨e, x⟩ := r
  obtain rfl : e = 0 := hr
  cases hdec : decodeCommand c.word c.data with
  | error err =>
    rw [executeCommand_of_error hdec] at h
    obtain rfl := Host.Outcome.next.inj h
    have hcode : ErrCode.illegal.code = 0 := congrArg Response.err (Phase.resp.inj hphase)
    exact absurd hcode (by decide)
  | ok i =>
    obtain ⟨op, hop, _, rfl⟩ := decodeCommand_eq_ok.mp hdec
    rw [executeCommand_of_ok hdec] at h
    exact ⟨op, eq_number_of_opcodeOf hop, exec_ok_eq_next h hphase⟩

theorem opcodeNumber_injective {op op' : Opcode} (h : op.number = op'.number) : op = op' :=
  Option.some.inj ((opcodeOf_number op).symm.trans (h ▸ opcodeOf_number op'))

theorem lt_of_checkIndex {idx bound : Nat} (h : checkIndex idx bound = none) : idx < bound := by
  by_contra hle
  exact nomatch (checkIndex_of_le (Nat.not_lt.mp hle)).symm.trans h

/-- The row of no command but WVAL and WPLANE takes the data word. -/
theorem assemble_data_congr {op : Opcode} (h1 : op ≠ .wval) (h3 : op ≠ .wplane) (cmd x y : Word) :
    op.assemble cmd x = op.assemble cmd y := by
  cases op with
  | wval => exact absurd rfl h1
  | wplane => exact absurd rfl h3
  | _ => rfl

theorem decodeCommand_data_congr {cmd : Word} (h1 : fieldOP cmd ≠ 1) (h3 : fieldOP cmd ≠ 3)
    (x y : Word) : decodeCommand cmd x = decodeCommand cmd y := by
  unfold decodeCommand
  cases hop : opcodeOf (fieldOP cmd) with
  | none => rfl
  | some op =>
    have hnum := eq_number_of_opcodeOf hop
    have hwval : op ≠ .wval := fun h => h1 (hnum.trans (congrArg Opcode.number h))
    have hwplane : op ≠ .wplane := fun h => h3 (hnum.trans (congrArg Opcode.number h))
    simp only [assemble_data_congr hwval hwplane cmd x y]

/-- R59: only the reads answer with data. -/
theorem answerOf_assemble_eq_zero {op : Opcode}
    (h : op.number ∈ ([0x0, 0x1, 0x3, 0x5, 0x7, 0x8, 0x9, 0xC] : List (BitVec 4)))
    (cmd data : Word) (s : State) : answerOf (op.assemble cmd data) s = 0 := by
  cases op with
  | rval | rplane | rtag | rcarry | rstat | rdcfg => exact absurd h (by decide)
  | nop | wval | wplane | lshape | encode | decode | add | clrstat => rfl

/-- Settles O12. -/
theorem dataWordReachesOnlyWrites : Obligations.DataWordReachesOnlyWrites := by
  refine ⟨fun s cmd x y h1 h3 => ?_, fun s t cmd x r hexec hphase hop hr => ?_,
    fun s t cmd x r hexec hphase hop hr => ?_, fun s t c r hexec hphase hdata => ?_⟩
  · simp only [executeCommand, decodeCommand_data_congr h1 h3 x y]
  · obtain ⟨op, hnum, hcheck, rfl⟩ := executeCommand_ok_eq_next hexec hphase hr
    obtain rfl : op = .wval := opcodeNumber_injective (hnum.symm.trans hop)
    exact (s.entry_setEntry _ _ _ _ x).trans (if_pos ⟨rfl, rfl, lt_of_checkIndex hcheck⟩)
  · obtain ⟨op, hnum, hcheck, rfl⟩ := executeCommand_ok_eq_next hexec hphase hr
    obtain rfl : op = .wplane := opcodeNumber_injective (hnum.symm.trans hop)
    exact (s.plane_setPlane _ _ _ _ x).trans (if_pos ⟨rfl, rfl, lt_of_checkIndex hcheck⟩)
  · by_cases hr : r.err = 0
    · obtain ⟨op, hnum, _, rfl⟩ := executeCommand_ok_eq_next hexec hphase hr
      have hquiet := hdata.resolve_left (not_not_intro hr)
      rw [hnum] at hquiet
      rw [← Phase.resp.inj hphase]
      exact answerOf_assemble_eq_zero hquiet _ _ s
    · exact (executeCommand_response_legal hexec hphase).2 hr

/-! ### The disassembler's lines assemble (R64) -/

theorem isToken_spellInstr (i : Instr) : ∀ cs ∈ (spellInstr i).2, IsToken cs := by
  cases i <;>
    simp [spellInstr, isToken_spellV, isToken_spellL, isToken_spellField, isToken_spellData]

/-- The mnemonic and operands a well-formed command is spelled with assemble to its two words. -/
theorem assembleOperands_spellInstr {i : Instr} (h : i.wellFormed = true) :
    assembleOperands (spellInstr i).1 (spellInstr i).2 = some (encodeInstr i) := by
  cases i with
  | nop | rstat | clrstat | rdcfg => rfl
  | wval | rval | wplane | rplane =>
    have hidx := of_decide_eq_true h
    simp [spellInstr, assembleOperands, readV_spellV, readL_spellL, readField6_spellField hidx,
      readData_spellData]
  | lshape d w n =>
    obtain ⟨hw, hn⟩ := Bool.and_eq_true_iff.mp h
    simp [spellInstr, assembleOperands, readL_spellL,
      readField6_spellField (of_decide_eq_true hw), readField6_spellField (of_decide_eq_true hn)]
  | encode d s w n t =>
    obtain ⟨hw, hn⟩ := Bool.and_eq_true_iff.mp h
    cases t <;>
      simp [spellInstr, assembleOperands, readV_spellV, readL_spellL,
        readField6_spellField (of_decide_eq_true hw), readField6_spellField (of_decide_eq_true hn)]
  | rtag | decode | add | rcarry =>
    simp [spellInstr, assembleOperands, readV_spellV, readL_spellL]

/-- R62, R64: a spelled command assembles to the words of its encoding. -/
theorem assembleLine_disassemble_of_ok {c : Command} {i : Instr}
    (h : decodeCommand c.word c.data = .ok i) (hi : i.wellFormed = true) :
    assembleLine (disassemble c) = .command (encodeInstr i) := by
  simp only [disassemble, h]
  rw [assembleLine_spelled _ (isToken_spellInstr i), assembleOperands_spellInstr hi]
  rfl

/-- R64: a word that spells no command is read back from its `.word`. -/
theorem assembleLine_disassemble_of_error {c : Command} {err : DecodeError}
    (h : decodeCommand c.word c.data = .error err) :
    assembleLine (disassemble c) = .command ⟨c.word, 0⟩ := by
  have htoken : ∀ cs ∈ [('0' :: 'x' :: hexDigits 8 c.word.toNat)], IsToken cs := by
    simpa using isToken_hex c.word.toNat
  simp only [disassemble, h]
  rw [assembleLine_spelled _ htoken]
  simp only [assembleOperands, readNumber_hex c.word.isLt, Option.filter_some, c.word.isLt,
    decide_true, if_true, Option.map_some, Option.elim_some, BitVec.ofNat_toNat, BitVec.setWidth_eq]

/-- Settles O52. -/
theorem assemblingDisassemblyGivesCommandBack : Obligations.AssemblingDisassemblyGivesCommandBack := by
  intro c
  cases hdec : decodeCommand c.word c.data with
  | error err => exact assembleLine_disassemble_of_error hdec
  | ok i =>
    obtain ⟨hwf, hword⟩ := encodingDecodedWordGivesItBack _ _ _ hdec
    rw [assembleLine_disassemble_of_ok hdec hwf, encodeInstr, hword]
    obtain ⟨op, _, _, rfl⟩ := decodeCommand_eq_ok.mp hdec
    cases op <;> rfl

/-! ### Pseudo-instructions (R63) -/

theorem length_vloadFrom (d : ValueBuf) (k : Nat) (xs : List Word) :
    (vloadFrom d k xs).length = xs.length := by
  induction xs generalizing k with
  | nil => rfl
  | cons x xs ih => simp [vloadFrom, ih]

theorem vloadFrom_wellFormed (d : ValueBuf) {k : Nat} {xs : List Word} (h : k + xs.length ≤ 64) :
    ∀ i ∈ vloadFrom d k xs, i.wellFormed = true := by
  induction xs generalizing k with
  | nil => exact fun i hi => absurd hi List.not_mem_nil
  | cons x xs ih =>
    rw [List.length_cons] at h
    refine List.forall_mem_cons.mpr ⟨?_, ih (by omega)⟩
    exact decide_eq_true (show k < 64 by omega)

/-- A list of commands numbered from 0 to below 64, each of which only needs its number to fit. -/
theorem map_range_wellFormed {n : Nat} (hn : n ≤ 64) {f : Nat → Instr}
    (hf : ∀ k, (f k).wellFormed = fits6 k) : ∀ i ∈ (List.range n).map f, i.wellFormed = true := by
  intro i hi
  obtain ⟨k, hk, rfl⟩ := List.mem_map.mp hi
  have hlt : k < n := List.mem_range.mp hk
  rw [hf]
  exact decide_eq_true (by omega)

theorem expandPseudo_wellFormed {p : Pseudo} (h : p.wellFormed = true) :
    ∀ i ∈ expandPseudo p, i.wellFormed = true := by
  cases p with
  | vload d xs =>
    have hlen : xs.length ≤ 32 := of_decide_eq_true (Bool.and_eq_true_iff.mp h).2
    exact vloadFrom_wellFormed d (by omega)
  | vread s n => exact map_range_wellFormed (of_decide_eq_true h) fun _ => rfl
  | lzero d w n =>
    have hw : w < 64 := of_decide_eq_true (Bool.and_eq_true_iff.mp h).1
    exact List.forall_mem_cons.mpr ⟨h, map_range_wellFormed (Nat.le_of_lt hw) fun _ => rfl⟩
  | addv d a b w n =>
    exact List.forall_mem_cons.mpr ⟨h, List.forall_mem_cons.mpr ⟨h, by simp [Instr.wellFormed]⟩⟩

/-- Settles O53. -/
theorem pseudoExpansionsAreWellFormed : Obligations.PseudoExpansionsAreWellFormed := by
  intro p h
  refine ⟨expandPseudo_wellFormed h, ?_⟩
  cases p with
  | vload d xs => exact length_vloadFrom d 0 xs
  | vread s n => simp [expandPseudo]
  | lzero d w n => simp [expandPseudo, Nat.add_comm]
  | addv d a b w n => rfl

/-! ### The spec's own examples -/

/-- Settles O7, by running the decoder. -/
theorem sampleWordsDecode : Obligations.SampleWordsDecode := by
  unfold Obligations.SampleWordsDecode
  decide

/-- Settles O51, by running the assembler. -/
theorem syntaxExamplesAssemble : Obligations.SyntaxExamplesAssemble := by
  unfold Obligations.SyntaxExamplesAssemble
  decide

end Sys2Proof.Machine

/-! PROOFS. The transposer: toLane and toValue as the two directions of one bit matrix (R67, R68, R69), and
what ENCODE and DECODE write, bit by bit (R70, R71, R72). -/

namespace Sys2Proof.Machine

open Sys2Proof.Config (C WMAX)

/-! ### The bits of a number below 2^W -/

theorem getLsbD_of_toNat_lt_two_pow {x : Word} {w b : Nat} (hx : x.toNat < 2 ^ w) (hb : w ≤ b) :
    x.getLsbD b = false :=
  Nat.testBit_lt_two_pow (hx.trans_le (Nat.pow_le_pow_right Nat.two_pos hb))

/-- A word with the low `w` bits of `y` and nothing above them is `y` modulo 2^w. -/
theorem toNat_eq_mod_two_pow {x y : Word} {w : Nat}
    (hlow : ∀ b, b < w → x.getLsbD b = y.getLsbD b)
    (hhigh : ∀ b, b < 32 → w ≤ b → x.getLsbD b = false) : x.toNat = y.toNat % 2 ^ w := by
  refine Nat.eq_of_testBit_eq fun b => ?_
  rw [Nat.testBit_mod_two_pow, ← BitVec.getLsbD, ← BitVec.getLsbD]
  by_cases hw : b < w
  · simp [hw, hlow b hw]
  · by_cases hb : b < 32
    · simp [hw, hhigh b hb (Nat.not_lt.mp hw)]
    · simp [hw, BitVec.getLsbD_of_ge x b (Nat.not_lt.mp hb)]

/-! ### The transposition functions (R67, R68, R69) -/

/-- R69 on one entry: a bit shifted down to position `b` stood at position `w + b`. -/
theorem ushiftRight_ne_zero_iff (x : Word) (w : Nat) :
    x >>> w ≠ 0 ↔ ∃ b, w ≤ b ∧ x.getLsbD b = true := by
  constructor
  · intro hne
    by_contra! hnone
    refine hne (BitVec.eq_of_getLsbD_eq fun b _ => ?_)
    simpa using hnone (w + b) (Nat.le_add_right w b)
  · rintro ⟨b, hb, hbit⟩ hzero
    have hshift : (x >>> w).getLsbD (b - w) = true := by
      rw [BitVec.getLsbD_ushiftRight, Nat.add_sub_cancel' hb, hbit]
    simp [hzero] at hshift

theorem outOfRange_iff_ushiftRight (vals : Nat → Word) (w n : Nat) :
    outOfRange vals w n = true ↔ ∃ i, i < n ∧ vals i >>> w ≠ 0 := by
  simp only [outOfRange, anyBelow_iff, bne_iff_ne]

theorem outOfRange_iff_getLsbD (vals : Nat → Word) (w n : Nat) :
    outOfRange vals w n = true ↔ ∃ i b, i < n ∧ w ≤ b ∧ (vals i).getLsbD b = true := by
  simp only [outOfRange_iff_ushiftRight, ushiftRight_ne_zero_iff, exists_and_left]

/-- No word reaches 2^32. -/
theorem outOfRange_full_width (vals : Nat → Word) (n : Nat) : outOfRange vals 32 n = false := by
  rw [← Bool.not_eq_true, outOfRange_iff]
  rintro ⟨i, _, hge⟩
  exact absurd (vals i).isLt (Nat.not_lt.mpr hge)

/-- Settles O35. -/
theorem rangePredicate : Obligations.RangePredicate :=
  fun vals w n => ⟨outOfRange_iff_ushiftRight vals w n, outOfRange_iff_getLsbD vals w n,
    outOfRange_full_width vals n, rfl⟩

/-- Transposing twice keeps of an entry below N its bits below W. -/
theorem toValue_toLane_getLsbD (vals : Nat → Word) {n w i b : Nat} (hn : n ≤ C) (hi : i < n)
    (hb : b < 32) :
    (toValue (toLane vals n) w i).getLsbD b = (decide (b < w) && (vals i).getLsbD b) := by
  have hi32 : i < 32 := hi.trans_le hn
  rw [toValue_getLsbD _ w i hb, toLane_getLsbD vals n b hi32, decide_eq_true hi, Bool.true_and]

/-- Transposing twice keeps of a plane below W its bits below N. -/
theorem toLane_toValue_getLsbD (planes : Nat → PlaneWord) {n w i b : Nat} (hw : w ≤ WMAX)
    (hb : b < w) (hi : i < 32) :
    (toLane (toValue planes w) n b).getLsbD i = (decide (i < n) && (planes b).getLsbD i) := by
  have hb32 : b < 32 := hb.trans_le hw
  rw [toLane_getLsbD _ n b hi, toValue_getLsbD planes w i hb32, decide_eq_true hb, Bool.true_and]

/-- Settles O38: the bits that a double transposition drops are 0 by the premises. -/
theorem transpositionsAreInverse : Obligations.TranspositionsAreInverse := by
  intro params w n hparams hw hn
  have hwmax : w ≤ WMAX := (width_bounds_of_mem hparams hw).2
  refine ⟨fun vals hvals i hi => BitVec.eq_of_getLsbD_eq fun b hb => ?_,
    fun planes hplanes b hb => BitVec.eq_of_getLsbD_eq fun i hi => ?_⟩
  · rw [toValue_toLane_getLsbD vals hn hi hb]
    by_cases hbw : b < w
    · simp [hbw]
    · simp [hbw, getLsbD_of_toNat_lt_two_pow (hvals i hi) (Nat.not_lt.mp hbw)]
  · rw [toLane_toValue_getLsbD planes hwmax hb hi]
    by_cases hin : i < n
    · simp [hin]
    · simp [hin, hplanes b i hb (Nat.not_lt.mp hin)]

/-- Settles O39. -/
theorem transpositionKeepsLanesApart : Obligations.TranspositionKeepsLanesApart := by
  refine ⟨fun f g n b i hi hfg => ?_,
    fun f g w i _ hfg => BitVec.eq_of_getLsbD_eq fun b hb => ?_⟩
  · rw [toLane_getLsbD f n b hi, toLane_getLsbD g n b hi, hfg]
  · rw [toValue_getLsbD f w i hb, toValue_getLsbD g w i hb]
    by_cases hbw : b < w
    · rw [hfg b hbw]
    · simp [hbw]

/-! ### The checks of ENCODE and DECODE -/

theorem encodeCheck_eq_none_iff {s : State} {v : ValueBuf} {w n : Nat} {x : Bool} :
    encodeCheck s v w n x = none ↔ n ≤ C ∧ w ∈ s.params.widthSet ∧
      (x = false → ∀ i, i < n → (s.entry v i).toNat < 2 ^ w) := by
  rcases encodeCheck_cases s v w n x with
    ⟨hn, e⟩ | ⟨_, hw, e⟩ | ⟨_, _, hx, ⟨i, hi, hge⟩, e⟩ | ⟨hn, hw, hrange, e⟩
  · exact iff_of_false (by simp [e]) fun ⟨hn', _⟩ => Nat.not_lt.mpr hn' hn
  · exact iff_of_false (by simp [e]) fun ⟨_, hw', _⟩ => hw hw'
  · exact iff_of_false (by simp [e]) fun ⟨_, _, hrange⟩ => Nat.not_lt.mpr hge (hrange hx i hi)
  · exact iff_of_true e ⟨hn, hw, hrange⟩

theorem encodeCheck_of_out_of_range {s : State} {v : ValueBuf} {w n i : Nat} (hn : n ≤ C)
    (hw : w ∈ s.params.widthSet) (hi : i < n) (hge : 2 ^ w ≤ (s.entry v i).toNat) :
    encodeCheck s v w n false = some .range := by
  rcases encodeCheck_cases s v w n false with
    ⟨hn', _⟩ | ⟨_, hw', _⟩ | ⟨_, _, _, _, e⟩ | ⟨_, _, hrange, _⟩
  · exact absurd hn (Nat.not_le.mpr hn')
  · exact absurd hw hw'
  · exact e
  · exact absurd (hrange rfl i hi) (Nat.not_lt.mpr hge)

theorem decodeCheck_of_valid {s : State} {l : LaneBuf} (h : (s.tag l).valid = true) :
    decodeCheck s l = none := if_pos h

theorem decodeCheck_of_not_valid {s : State} {l : LaneBuf} (h : (s.tag l).valid = false) :
    decodeCheck s l = some .uninit := by
  rw [decodeCheck, h]
  rfl

/-- Settles O34. -/
theorem encodeOutOfRangeRaises : Obligations.EncodeOutOfRangeRaises :=
  fun _ d v w n _ hw hn hi hge =>
    exec_raises (i := .encode d v w n false) (encodeCheck_of_out_of_range hn hw hi hge)

/-- Settles O37. -/
theorem decodeUnshapedRaises : Obligations.DecodeUnshapedRaises :=
  fun _ d l h => exec_raises (i := .decode d l) (decodeCheck_of_not_valid h)

/-! ### What ENCODE writes (R70) -/

/-- A legal shape fits the fields of a tag (R25). -/
theorem State.shape_of_tag {s : State} {l : LaneBuf} {w n : Nat} (h : s.tag l = Tag.ofShape w n)
    (hw : w ≤ WMAX) (hn : n ≤ C) : s.tagW l = w ∧ s.tagN l = n := by
  rw [State.tagW, State.tagN, h]
  exact ⟨toNat_ofNat_of_fits6 (decide_eq_true (hw.trans_lt (by decide))),
    toNat_ofNat_of_fits6 (decide_eq_true (hn.trans_lt (by decide)))⟩

theorem State.plane_setLane_laneImage (s : State) (d : LaneBuf) (f : Nat → PlaneWord) (w n : Nat)
    (c : PlaneWord) {p : Nat} (hp : p < WMAX) :
    (s.setLane d (laneImage f w n c)).plane d p = if p < w then f p else 0 := by
  rw [State.plane_of_lt _ d hp, State.lane_setLane_get, if_pos rfl,
    laneImage_planes_getElem _ _ _ _ hp]

section
variable (s : State) (d : LaneBuf) (v : ValueBuf) (w n : Nat) (x : Bool)

theorem tag_writeOf_encode : (writeOf (.encode d v w n x) s).tag d = Tag.ofShape w n :=
  (State.tag_setLane s d d _).trans (if_pos rfl)

theorem carry_writeOf_encode : (writeOf (.encode d v w n x) s).carry d = 0 :=
  (State.carry_setLane s d d _).trans (if_pos rfl)

theorem plane_writeOf_encode_getLsbD {p i : Nat} (hp : p < WMAX) (hi : i < C) :
    ((writeOf (.encode d v w n x) s).plane d p).getLsbD i =
      (decide (p < w ∧ i < n) && (s.entry v i).getLsbD p) := by
  rw [writeOf, State.plane_setLane_laneImage s d _ w n 0 hp]
  by_cases hpw : p < w
  · simp [hpw, toLane_getLsbD (s.entry v) n p hi]
  · simp [hpw]

end

/-- Settles O33. -/
theorem encodeTransposesValues : Obligations.EncodeTransposesValues := by
  intro s d v w n x hparams hw hn hrange
  have hcheck : checkOf (.encode d v w n x) s = none :=
    encodeCheck_eq_none_iff.mpr ⟨hn, hw, hrange⟩
  have htag : (writeOf (.encode d v w n x) s).tag d = Tag.ofShape w n :=
    tag_writeOf_encode s d v w n x
  obtain ⟨htagW, htagN⟩ := State.shape_of_tag htag (width_bounds_of_mem hparams hw).2 hn
  have hothers : OtherLanesKept s (writeOf (.encode d v w n x) s) d := fun l hl =>
    writeOf_lane_get (i := .encode d v w n x) (fun hd => hl (Option.some.inj hd).symm) s
  exact ⟨_, exec_of_checkOf_none hcheck, (Written.encoded d _ hn hw).completes 0,
    fun p i hp hi => plane_writeOf_encode_getLsbD s d v w n x hp hi,
    congrArg Tag.valid htag, htagW, htagN, carry_writeOf_encode s d v w n x, hothers, rfl, rfl⟩

/-! ### What DECODE writes (R71) -/

theorem State.entry_setValues_valueImage (s : State) (d : ValueBuf) (f : Nat → Word) (n : Nat)
    {i : Nat} (hi : i < C) :
    (s.setValues d (valueImage f n)).entry d i = if i < n then f i else 0 := by
  rw [State.entry_of_lt _ d hi, State.value_setValues_get, if_pos rfl, valueImage_getElem _ _ hi]

theorem entry_writeOf_decode (s : State) (d : ValueBuf) (l : LaneBuf) {i : Nat} (hi : i < C) :
    (writeOf (.decode d l) s).entry d i =
      if i < s.tagN l then toValue (s.plane l) (s.tagW l) i else 0 :=
  s.entry_setValues_valueImage d _ _ hi

theorem entry_writeOf_decode_getLsbD (s : State) (d : ValueBuf) (l : LaneBuf) {i b : Nat}
    (hi : i < C) (hb : b < 32) :
    ((writeOf (.decode d l) s).entry d i).getLsbD b =
      (decide (i < s.tagN l ∧ b < s.tagW l) && (s.plane l b).getLsbD i) := by
  rw [entry_writeOf_decode s d l hi]
  by_cases hin : i < s.tagN l
  · simp [hin, toValue_getLsbD (s.plane l) (s.tagW l) i hb]
  · simp [hin]

/-- DECODE of a shaped buffer completes with its write. -/
theorem exec_decode_of_valid {s : State} {l : LaneBuf} (hvalid : (s.tag l).valid = true)
    (d : ValueBuf) :
    exec (.decode d l) s = .next ((writeOf (.decode d l) s).respond 0) ∧
      Completes s ((writeOf (.decode d l) s).respond 0) .ok 0 :=
  ⟨exec_of_checkOf_none (i := .decode d l) (decodeCheck_of_valid hvalid),
    (Written.values d _).completes 0⟩

/-- Settles O36. -/
theorem decodeTransposesPlanes : Obligations.DecodeTransposesPlanes := by
  intro s d l _ _ hvalid
  obtain ⟨hexec, hdone⟩ := exec_decode_of_valid hvalid d
  have hothers : OtherValuesKept s (writeOf (.decode d l) s) d := fun v hv =>
    writeOf_value_get (i := .decode d l) (fun hd => hv (Option.some.inj hd).symm) s
  exact ⟨_, hexec, hdone, fun i b hi hb => entry_writeOf_decode_getLsbD s d l hi hb, hothers, rfl,
    rfl⟩

/-! ### ENCODE, then DECODE (R72) -/

section
variable {u : State} {l : LaneBuf} {w n i : Nat} (hshape : u.tag l = Tag.ofShape w n)
  (hw : w ≤ WMAX) (hn : n ≤ C)
include hshape hw hn

/-- A bit of a shaped buffer, in the entry that DECODE makes of it. -/
theorem entry_writeOf_decode_getLsbD_of_shape (d : ValueBuf) (hi : i < n) {b : Nat} (hb : b < 32) :
    ((writeOf (.decode d l) u).entry d i).getLsbD b =
      (decide (b < w) && (u.plane l b).getLsbD i) := by
  obtain ⟨htagW, htagN⟩ := State.shape_of_tag hshape hw hn
  rw [entry_writeOf_decode_getLsbD u d l (hi.trans_le hn) hb, htagW, htagN]
  simp [hi]

/-- Planes that hold the low `w` bits of `y` in lane `i` decode to `y` modulo 2^w. -/
theorem entry_writeOf_decode_toNat (d : ValueBuf) (hi : i < n) {y : Word}
    (hbits : ∀ b, b < w → (u.plane l b).getLsbD i = y.getLsbD b) :
    ((writeOf (.decode d l) u).entry d i).toNat = y.toNat % 2 ^ w := by
  refine toNat_eq_mod_two_pow (fun b hb => ?_) fun b hb hbw => ?_
  · rw [entry_writeOf_decode_getLsbD_of_shape hshape hw hn d hi (hb.trans_le hw), hbits b hb]
    simp [hb]
  · rw [entry_writeOf_decode_getLsbD_of_shape hshape hw hn d hi hb]
    simp [Nat.not_lt.mpr hbw]

theorem entry_writeOf_decode_eq_zero (d : ValueBuf) (hi : n ≤ i) (hiC : i < C) :
    (writeOf (.decode d l) u).entry d i = 0 := by
  obtain ⟨_, htagN⟩ := State.shape_of_tag hshape hw hn
  rw [entry_writeOf_decode u d l hiC, htagN, if_neg (Nat.not_lt.mpr hi)]

end

/-- Settles O40: a bit below W and N that is still as the ENCODE left it is the value bit it came from,
and DECODE puts it back there. -/
theorem encodeThenDecodeGivesValues : Obligations.EncodeThenDecodeGivesValues := by
  intro s t u d v v' w n x hparams hexec hphase htag
  obtain ⟨hcheck, rfl⟩ := exec_ok_eq_next hexec hphase
  obtain ⟨hn, hw, hrange⟩ := encodeCheck_eq_none_iff.mp hcheck
  have hwmax : w ≤ WMAX := (width_bounds_of_mem hparams hw).2
  have hshape : u.tag d = Tag.ofShape w n := htag.trans (tag_writeOf_encode s d v w n x)
  have hsource : ∀ p i, p < w → i < n →
      ((writeOf (.encode d v w n x) s).plane d p).getLsbD i = (s.entry v i).getLsbD p := by
    intro p i hp hi
    rw [plane_writeOf_encode_getLsbD s d v w n x (hp.trans_le hwmax) (hi.trans_le hn)]
    simp [hp, hi]
  obtain ⟨hdecode, hdone⟩ := exec_decode_of_valid (congrArg Tag.valid hshape) v'
  refine ⟨_, hdecode, hdone, fun hkept => ?_, fun p i hp hi hkept => ?_,
    fun i hi hiC => entry_writeOf_decode_eq_zero hshape hwmax hn v' hi hiC⟩
  · have hmod : ∀ i, i < n →
        ((writeOf (.decode v' d) u).entry v' i).toNat = (s.entry v i).toNat % 2 ^ w := fun i hi =>
      entry_writeOf_decode_toNat hshape hwmax hn v' hi fun p hp =>
        (hkept p i hp hi).trans (hsource p i hp hi)
    exact ⟨hmod, fun hx i hi =>
      BitVec.eq_of_toNat_eq ((hmod i hi).trans (Nat.mod_eq_of_lt (hrange hx i hi)))⟩
  · calc ((writeOf (.decode v' d) u).entry v' i).getLsbD p
        = (u.plane d p).getLsbD i := by
          rw [entry_writeOf_decode_getLsbD_of_shape hshape hwmax hn v' hi (hp.trans_le hwmax)]
          simp [hp]
      _ = ((writeOf (.encode d v w n x) s).plane d p).getLsbD i := hkept
      _ = (s.entry v i).getLsbD p := hsource p i hp hi

end Sys2Proof.Machine

/-! PROOFS. The lane adder: its chain of full adders (R80, R81) adds the values of every lane
exactly (R84), and from that what ADD writes, raises and keeps apart (R82, R86, R87), and sums of
double width (R88). -/

namespace Sys2Proof.Machine

open Sys2Proof.Config (C WMAX)

/-! ### One plane step, bit by bit (R80) -/

@[simp] theorem fullAdderSum_getLsbD (x y c : PlaneWord) (i : Nat) :
    (fullAdderSum x y c).getLsbD i = ((x.getLsbD i ^^ y.getLsbD i) ^^ c.getLsbD i) := by
  rw [fullAdderSum, BitVec.getLsbD_xor, BitVec.getLsbD_xor]

@[simp] theorem fullAdderCarry_getLsbD (x y c : PlaneWord) (i : Nat) :
    (fullAdderCarry x y c).getLsbD i =
      (x.getLsbD i && y.getLsbD i || c.getLsbD i && (x.getLsbD i ^^ y.getLsbD i)) := by
  rw [fullAdderCarry, BitVec.getLsbD_or, BitVec.getLsbD_and, BitVec.getLsbD_and, BitVec.getLsbD_xor]

/-- The truth table of the full adder. -/
theorem fullAdder_toNat (x y c : Bool) :
    ((x ^^ y) ^^ c).toNat + 2 * (x && y || c && (x ^^ y)).toNat = x.toNat + y.toNat + c.toNat := by
  revert x y c
  decide

/-- Settles O41. -/
theorem planeStepIsFullAdder : Obligations.PlaneStepIsFullAdder := by
  intro x y c i
  rw [fullAdderSum_getLsbD, fullAdderCarry_getLsbD]
  exact fullAdder_toNat _ _ _

theorem fullAdderSum_comm (x y c : PlaneWord) : fullAdderSum x y c = fullAdderSum y x c := by
  rw [fullAdderSum, fullAdderSum, BitVec.xor_comm x y]

theorem fullAdderCarry_comm (x y c : PlaneWord) : fullAdderCarry x y c = fullAdderCarry y x c := by
  rw [fullAdderCarry, fullAdderCarry, BitVec.and_comm x y, BitVec.xor_comm x y]

@[simp] theorem fullAdderSum_zero (x : PlaneWord) : fullAdderSum x 0 0 = x := by
  simp [fullAdderSum]

@[simp] theorem fullAdderCarry_zero (x : PlaneWord) : fullAdderCarry x 0 0 = 0 := by
  simp [fullAdderCarry]

/-! ### The value of a lane, plane by plane (R66) -/

/-- The lowest `w` planes hold the value modulo 2^w. -/
theorem toValue_toNat_eq_mod (P : Nat → PlaneWord) (i : Nat) {w v : Nat} (hwv : w ≤ v) :
    (toValue P w i).toNat = (toValue P v i).toNat % 2 ^ w := by
  refine toNat_eq_mod_two_pow (fun b hb => ?_) fun b hb hwb => ?_
  · by_cases hb32 : b < 32
    · rw [toValue_getLsbD P w i hb32, toValue_getLsbD P v i hb32, decide_eq_true hb,
        decide_eq_true (hb.trans_le hwv)]
    · have hb32' : 32 ≤ b := Nat.not_lt.mp hb32
      rw [BitVec.getLsbD_of_ge _ b hb32', BitVec.getLsbD_of_ge _ b hb32']
  · rw [toValue_getLsbD P w i hb, decide_eq_false (Nat.not_lt.mpr hwb), Bool.false_and]

theorem toValue_toNat_lt (P : Nat → PlaneWord) (w i : Nat) : (toValue P w i).toNat < 2 ^ w := by
  rw [toValue_toNat_eq_mod P i le_rfl]
  exact Nat.mod_lt _ (Nat.two_pow_pos w)

theorem toValue_toNat_zero (P : Nat → PlaneWord) (i : Nat) : (toValue P 0 i).toNat = 0 := rfl

/-- Plane `w` has the weight 2^w. -/
theorem toValue_toNat_succ (P : Nat → PlaneWord) (i : Nat) {w : Nat} (hw : w < WMAX) :
    (toValue P (w + 1) i).toNat = (toValue P w i).toNat + 2 ^ w * ((P w).getLsbD i).toNat := by
  have htop : (toValue P (w + 1) i).toNat.testBit w = (P w).getLsbD i := by
    rw [BitVec.testBit_toNat, toValue_getLsbD P (w + 1) i hw, decide_eq_true w.lt_succ_self,
      Bool.true_and]
  rw [toValue_toNat_eq_mod P i (le_refl (w + 1)), Nat.mod_pow_succ, ← Nat.toNat_testBit, htop,
    ← toValue_toNat_eq_mod P i w.le_succ]

/-- A buffer whose planes above plane 0 are 0 holds that plane's bit in every lane. -/
theorem toValue_toNat_of_upper_zero {P : Nat → PlaneWord} (hP : ∀ p, P (p + 1) = 0) (i : Nat)
    {w : Nat} (hw : w < WMAX) : (toValue P (w + 1) i).toNat = ((P 0).getLsbD i).toNat := by
  induction w with
  | zero => rw [toValue_toNat_succ P i hw, toValue_toNat_zero, pow_zero, one_mul, zero_add]
  | succ w ih =>
    rw [toValue_toNat_succ P i hw, ih (Nat.lt_of_succ_lt hw), hP w]
    simp

/-! ### The chain (R81) -/

section
variable {A B A' B' : Nat → PlaneWord} {m : PlaneWord}

/-- R84 for the chain: in a lane under the mask, the sum planes and the carry word after them hold
the exact sum of the two values. -/
theorem toValue_add_eq_sumPlane_carryInto (A B : Nat → PlaneWord) {i : Nat}
    (hi : m.getLsbD i = true) {w : Nat} (hw : w ≤ WMAX) :
    (toValue A w i).toNat + (toValue B w i).toNat =
      (toValue (sumPlane A B m) w i).toNat + 2 ^ w * ((carryInto A B m w).getLsbD i).toNat := by
  induction w with
  | zero => simp [toValue_toNat_zero, carryInto]
  | succ w ih =>
    have hstep := planeStepIsFullAdder (A w &&& m) (B w &&& m) (carryInto A B m w) i
    rw [BitVec.getLsbD_and, BitVec.getLsbD_and, hi, Bool.and_true, Bool.and_true, ← sumPlane,
      ← carryInto] at hstep
    rw [toValue_toNat_succ A i hw, toValue_toNat_succ B i hw, toValue_toNat_succ _ i hw]
    linear_combination ih (Nat.le_of_succ_le hw) - 2 ^ w * hstep

theorem carryInto_comm (A B : Nat → PlaneWord) (m : PlaneWord) (p : Nat) :
    carryInto A B m p = carryInto B A m p := by
  induction p with
  | zero => rfl
  | succ p ih => rw [carryInto, carryInto, fullAdderCarry_comm, ih]

theorem sumPlane_comm (A B : Nat → PlaneWord) (m : PlaneWord) :
    sumPlane A B m = sumPlane B A m := by
  funext p
  rw [sumPlane, sumPlane, fullAdderSum_comm, carryInto_comm]

theorem carryInto_eq_zero {w : Nat} (hB : ∀ p, p < w → B p &&& m = 0) {p : Nat} (hp : p ≤ w) :
    carryInto A B m p = 0 := by
  induction p with
  | zero => rfl
  | succ p ih => rw [carryInto, hB p hp, ih (Nat.le_of_succ_le hp), fullAdderCarry_zero]

theorem sumPlane_eq_left {w : Nat} (hB : ∀ p, p < w → B p &&& m = 0) {p : Nat} (hp : p < w) :
    sumPlane A B m p = A p &&& m := by
  rw [sumPlane, hB p hp, carryInto_eq_zero hB hp.le, fullAdderSum_zero]

/-- The carry into plane `p` of lane `i` depends on that lane of the planes below. -/
theorem carryInto_getLsbD_congr {w i : Nat}
    (hA : ∀ p, p < w → (A' p).getLsbD i = (A p).getLsbD i)
    (hB : ∀ p, p < w → (B' p).getLsbD i = (B p).getLsbD i) {p : Nat} (hp : p ≤ w) :
    (carryInto A' B' m p).getLsbD i = (carryInto A B m p).getLsbD i := by
  induction p with
  | zero => rfl
  | succ p ih => simp [carryInto, hA p hp, hB p hp, ih (Nat.le_of_succ_le hp)]

theorem sumPlane_getLsbD_congr {w i : Nat}
    (hA : ∀ p, p < w → (A' p).getLsbD i = (A p).getLsbD i)
    (hB : ∀ p, p < w → (B' p).getLsbD i = (B p).getLsbD i) {p : Nat} (hp : p < w) :
    (sumPlane A' B' m p).getLsbD i = (sumPlane A B m p).getLsbD i := by
  simp [sumPlane, hA p hp, hB p hp, carryInto_getLsbD_congr hA hB hp.le]

/-- No carry enters or leaves a lane outside the mask. -/
theorem carryInto_getLsbD_of_not_mask {k : Nat} (hk : m.getLsbD k = false) (p : Nat) :
    (carryInto A B m p).getLsbD k = false := by
  rw [← carryInto_and_mask, BitVec.getLsbD_and, hk, Bool.and_false]

theorem sumPlane_getLsbD_of_not_mask {k : Nat} (hk : m.getLsbD k = false) (p : Nat) :
    (sumPlane A B m p).getLsbD k = false := by
  simp [sumPlane, hk, carryInto_getLsbD_of_not_mask hk p]

end

/-! ### The checks of ADD (R82, R122) -/

theorem addCheck_of_not_valid {s : State} {a b : LaneBuf}
    (h : (s.tag a).valid = false ∨ (s.tag b).valid = false) (d : LaneBuf) :
    addCheck s d a b = some .uninit := if_pos h

theorem addCheck_of_aliased {s : State} {d a b : LaneBuf} (ha : (s.tag a).valid = true)
    (hb : (s.tag b).valid = true) (h : d = a ∨ d = b) : addCheck s d a b = some .aliasing := by
  simp [addCheck, ha, hb, h]

theorem addCheck_of_shapes_ne {s : State} {d a b : LaneBuf} (ha : (s.tag a).valid = true)
    (hb : (s.tag b).valid = true) (hda : d ≠ a) (hdb : d ≠ b)
    (h : (s.tag a).w ≠ (s.tag b).w ∨ (s.tag a).n ≠ (s.tag b).n) :
    addCheck s d a b = some .shape := by
  rw [addCheck, if_neg (by simp [ha, hb]), if_neg (by simp [hda, hdb]), if_pos h]

theorem addCheck_eq_none_iff {s : State} {d a b : LaneBuf} :
    addCheck s d a b = none ↔
      (s.tag a).valid = true ∧ s.tag b = s.tag a ∧ d ≠ a ∧ d ≠ b := by
  rcases addCheck_cases s d a b with
    ⟨h, e⟩ | ⟨_, _, h, e⟩ | ⟨_, _, _, _, h, e⟩ | ⟨ha, htag, hda, hdb, e⟩
  · refine iff_of_false (by simp [e]) fun ⟨ha, htag, _⟩ => ?_
    simp [htag, ha] at h
  · exact iff_of_false (by simp [e]) fun ⟨_, _, hda, hdb⟩ => h.elim hda hdb
  · refine iff_of_false (by simp [e]) fun ⟨_, htag, _⟩ => ?_
    simp [htag] at h
  · exact iff_of_true e ⟨ha, htag, hda, hdb⟩

theorem addCheck_comm (s : State) (d a b : LaneBuf) : addCheck s d a b = addCheck s d b a :=
  if_congr or_comm rfl
    (if_congr or_comm rfl (if_congr (or_congr ne_comm ne_comm) rfl rfl))

/-- Settles O43. -/
theorem addErrorsRaise : Obligations.AddErrorsRaise := by
  refine fun s d a b => ⟨fun h => ?_, fun ha hb h => ?_, fun ha hb hda hdb h => ?_⟩
  · exact exec_raises (i := .add d a b) (addCheck_of_not_valid h d)
  · exact exec_raises (i := .add d a b) (addCheck_of_aliased ha hb h)
  · have hshape : (s.tag a).w ≠ (s.tag b).w ∨ (s.tag a).n ≠ (s.tag b).n :=
      h.imp (mt (congrArg BitVec.toNat)) (mt (congrArg BitVec.toNat))
    exact exec_raises (i := .add d a b) (addCheck_of_shapes_ne ha hb hda hdb hshape)

/-! ### What ADD writes (R82) -/

section
variable (s : State) (d a b : LaneBuf)

theorem plane_writeOf_add {p : Nat} (hp : p < WMAX) :
    (writeOf (.add d a b) s).plane d p =
      if p < s.tagW a then sumPlane (s.plane a) (s.plane b) (laneMask (s.tagN a)) p else 0 :=
  s.plane_setLane_laneImage d _ _ _ _ hp

theorem carry_writeOf_add :
    (writeOf (.add d a b) s).carry d =
      carryInto (s.plane a) (s.plane b) (laneMask (s.tagN a)) (s.tagW a) :=
  (s.carry_setLane d d _).trans (if_pos rfl)

theorem tag_writeOf_add (ha : (s.tag a).valid = true) :
    (writeOf (.add d a b) s).tag d = s.tag a :=
  ((s.tag_setLane d d _).trans (if_pos rfl)).trans (Tag.ofShape_toNat ha)

/-- Bits outside the lane mask are 0 in every plane that ADD writes. -/
theorem plane_writeOf_add_getLsbD_of_ge {p k : Nat} (hp : p < WMAX) (hk : s.tagN a ≤ k) :
    ((writeOf (.add d a b) s).plane d p).getLsbD k = false := by
  have hmask : (laneMask (s.tagN a)).getLsbD k = false := by simp [laneMask_getLsbD, hk]
  rw [plane_writeOf_add s d a b hp]
  split
  · exact sumPlane_getLsbD_of_not_mask hmask p
  · exact BitVec.getLsbD_zero

theorem carry_writeOf_add_getLsbD_of_ge {k : Nat} (hk : s.tagN a ≤ k) :
    ((writeOf (.add d a b) s).carry d).getLsbD k = false := by
  rw [carry_writeOf_add]
  exact carryInto_getLsbD_of_not_mask (by simp [laneMask_getLsbD, hk]) _

/-- R84: ADD's planes and carry register hold the exact sum of the two sources in every lane. -/
theorem toValue_add_eq_writeOf_add (hw : s.tagW a ≤ WMAX) (hn : s.tagN a ≤ C) {i : Nat}
    (hi : i < s.tagN a) :
    (toValue (s.plane a) (s.tagW a) i).toNat + (toValue (s.plane b) (s.tagW a) i).toNat =
      (toValue ((writeOf (.add d a b) s).plane d) (s.tagW a) i).toNat +
        2 ^ s.tagW a * (((writeOf (.add d a b) s).carry d).getLsbD i).toNat := by
  have hi32 : i < 32 := hi.trans_le hn
  have hplanes : toValue ((writeOf (.add d a b) s).plane d) (s.tagW a) i =
      toValue (sumPlane (s.plane a) (s.plane b) (laneMask (s.tagN a))) (s.tagW a) i :=
    toValue_congr hi hi32 fun p hp => by rw [plane_writeOf_add s d a b (hp.trans_le hw), if_pos hp]
  rw [hplanes, carry_writeOf_add]
  exact toValue_add_eq_sumPlane_carryInto _ _ (by simp [laneMask_getLsbD, hi, hi32]) hw

end

/-- A sum split at 2^W into its low part and one carry bit. -/
theorem mod_and_le_of_eq_add_mul {x z M : Nat} {c : Bool} (hz : z < M) (h : x = z + M * c.toNat) :
    z = x % M ∧ (c = true ↔ M ≤ x) := by
  subst h
  cases c with
  | false => simp [Nat.mod_eq_of_lt hz, hz]
  | true => simp [Nat.mod_eq_of_lt hz]

/-- Settles O42. -/
theorem addIsLanewiseAddition : Obligations.AddIsLanewiseAddition := by
  intro s d a b hparams hlegal hvalid htag hda hdb
  have hcheck : checkOf (.add d a b) s = none :=
    addCheck_eq_none_iff.mpr ⟨hvalid, htag, hda, hdb⟩
  obtain ⟨⟨hshape, _⟩, _⟩ := hlegal
  obtain ⟨hmem, hn⟩ := hshape hvalid
  have hw : s.tagW a ≤ WMAX := (width_bounds_of_mem hparams hmem).2
  have hothers : OtherLanesKept s (writeOf (.add d a b) s) d := fun l hl =>
    writeOf_lane_get (i := .add d a b) (fun hd => hl (Option.some.inj hd).symm) s
  refine ⟨_, exec_of_checkOf_none hcheck, (Written.added d a b _ hvalid).completes 0,
    fun i hi => ?_,
    fun p hp hwp => (plane_writeOf_add s d a b hp).trans (if_neg (Nat.not_lt.mpr hwp)),
    fun p k hp hk => plane_writeOf_add_getLsbD_of_ge s d a b hp hk,
    fun k hk => carry_writeOf_add_getLsbD_of_ge s d a b hk, tag_writeOf_add s d a b hvalid, hothers,
    rfl, rfl⟩
  have hsum := toValue_add_eq_writeOf_add s d a b hw hn hi
  obtain ⟨hmod, hcarry⟩ := mod_and_le_of_eq_add_mul (toValue_toNat_lt _ _ _) hsum
  exact ⟨hmod, hcarry, hsum⟩

/-! ### Commutativity and the zero array (R86) -/

theorem writeOf_add_comm {s : State} {a b : LaneBuf} (htag : s.tag b = s.tag a) (d : LaneBuf) :
    writeOf (.add d a b) s = writeOf (.add d b a) s := by
  simp only [writeOf, State.tagW, State.tagN, htag, sumPlane_comm (s.plane a),
    carryInto_comm (s.plane a)]

theorem exec_add_comm (s : State) (d a b : LaneBuf) :
    exec (.add d a b) s = exec (.add d b a) s := by
  rw [exec_eq_guarded, exec_eq_guarded]
  have hcomm : checkOf (.add d b a) s = checkOf (.add d a b) s := addCheck_comm s d b a
  have hanswer : answerOf (.add d b a) s = answerOf (.add d a b) s := rfl
  rw [hcomm, hanswer]
  cases hcheck : checkOf (.add d a b) s with
  | some e => rw [guarded_some, guarded_some]
  | none =>
    obtain ⟨_, htag, _⟩ := addCheck_eq_none_iff.mp hcheck
    rw [writeOf_add_comm htag]

/-- Settles O44. -/
theorem addCommutesWithZeroIdentity : Obligations.AddCommutesWithZeroIdentity := by
  refine ⟨exec_add_comm, fun s d a b hparams hlegal hvalid htag hda hdb hzero => ?_⟩
  have hcheck : checkOf (.add d a b) s = none :=
    addCheck_eq_none_iff.mpr ⟨hvalid, htag, hda, hdb⟩
  obtain ⟨⟨hshape, _⟩, _⟩ := hlegal
  obtain ⟨hmem, _⟩ := hshape hvalid
  have hw : s.tagW a ≤ WMAX := (width_bounds_of_mem hparams hmem).2
  refine ⟨_, exec_of_checkOf_none hcheck, rfl, ?_, fun p hp => ?_⟩
  · exact (carry_writeOf_add s d a b).trans (carryInto_eq_zero hzero le_rfl)
  · calc (writeOf (.add d a b) s).plane d p
        = sumPlane (s.plane a) (s.plane b) (laneMask (s.tagN a)) p :=
          (plane_writeOf_add s d a b (hp.trans_le hw)).trans (if_pos hp)
      _ = s.plane a p &&& laneMask (s.tagN a) := sumPlane_eq_left hzero hp

/-! ### Lane independence (R87) -/

theorem State.shape_congr {s s' : State} {l : LaneBuf} (h : s'.tag l = s.tag l) :
    s'.tagW l = s.tagW l ∧ s'.tagN l = s.tagN l :=
  ⟨congrArg (·.w.toNat) h, congrArg (·.n.toNat) h⟩

section
variable {s s' : State} {a b : LaneBuf} {i : Nat} (htag : s'.tag a = s.tag a)
  (hA : ∀ p, p < s.tagW a → (s'.plane a p).getLsbD i = (s.plane a p).getLsbD i)
  (hB : ∀ p, p < s.tagW a → (s'.plane b p).getLsbD i = (s.plane b p).getLsbD i)
include htag hA hB

theorem plane_writeOf_add_getLsbD_congr (d : LaneBuf) {p : Nat} (hp : p < WMAX) :
    ((writeOf (.add d a b) s').plane d p).getLsbD i =
      ((writeOf (.add d a b) s).plane d p).getLsbD i := by
  obtain ⟨hw, hn⟩ := State.shape_congr htag
  rw [plane_writeOf_add s' d a b hp, plane_writeOf_add s d a b hp, hw, hn]
  split
  · next hpw => exact sumPlane_getLsbD_congr hA hB hpw
  · rfl

theorem carry_writeOf_add_getLsbD_congr (d : LaneBuf) :
    ((writeOf (.add d a b) s').carry d).getLsbD i =
      ((writeOf (.add d a b) s).carry d).getLsbD i := by
  obtain ⟨hw, hn⟩ := State.shape_congr htag
  rw [carry_writeOf_add, carry_writeOf_add, hw, hn]
  exact carryInto_getLsbD_congr hA hB le_rfl

end

/-- Settles O45. -/
theorem addKeepsLanesApart : Obligations.AddKeepsLanesApart := by
  intro s s' t t' d a b i hexec hexec' hphase hphase' htag hA hB
  obtain ⟨_, rfl⟩ := exec_ok_eq_next hexec hphase
  obtain ⟨_, rfl⟩ := exec_ok_eq_next hexec' hphase'
  exact ⟨fun p hp => plane_writeOf_add_getLsbD_congr htag hA hB d hp,
    carry_writeOf_add_getLsbD_congr htag hA hB d⟩

/-! ### Double width (R88) -/

/-- A carry added to a sum that has overflowed does not overflow again: the wrapped sum of two
numbers below `M` is at most `M - 2`. -/
theorem not_both_overflow {M x y z z' : Nat} {c c₁ c₂ : Bool} (hx : x < M) (hy : y < M)
    (hsum : x + y = z + M * c₁.toNat) (hcarry : z + c.toNat = z' + M * c₂.toNat) :
    ¬(c₁ = true ∧ c₂ = true) := by
  rintro ⟨rfl, rfl⟩
  have hc : c.toNat ≤ 1 := c.toNat_le
  simp only [Bool.toNat_true, mul_one] at hsum hcarry
  omega

theorem toNat_or_of_not_and {c₁ c₂ : Bool} (h : ¬(c₁ = true ∧ c₂ = true)) :
    (c₁ || c₂).toNat = c₁.toNat + c₂.toNat := by
  revert c₁ c₂
  decide

/-- Settles O47: the three additions are exact by R84 for the chain, and the carries of the two
upper ones exclude each other, so their OR is their sum. -/
theorem wideSumFromThreeAdditions : Obligations.WideSumFromThreeAdditions := by
  intro aLo bLo aHi bHi w n i hw hwmax hn hi m cLo hi1 c1 carryPlanes hi2 c2 wide
  have hi32 : i < 32 := hi.trans_le hn
  have hm : m.getLsbD i = true := by simp [m, laneMask_getLsbD, hi, hi32]
  have hlow := toValue_add_eq_sumPlane_carryInto aLo bLo hm hwmax
  have hupper := toValue_add_eq_sumPlane_carryInto aHi bHi hm hwmax
  have hcarry := toValue_add_eq_sumPlane_carryInto hi1 carryPlanes hm hwmax
  have hcarryIn : (toValue carryPlanes w i).toNat = (cLo.getLsbD i).toNat := by
    obtain ⟨v, rfl⟩ := Nat.exists_eq_add_of_le' hw
    exact toValue_toNat_of_upper_zero (fun _ => rfl) i hwmax
  rw [hcarryIn] at hcarry
  have hnot : ¬(c1.getLsbD i = true ∧ c2.getLsbD i = true) :=
    not_both_overflow (toValue_toNat_lt _ _ _) (toValue_toNat_lt _ _ _) hupper hcarry
  have hor : ((c1 ||| c2).getLsbD i).toNat = (c1.getLsbD i).toNat + (c2.getLsbD i).toNat := by
    rw [BitVec.getLsbD_or, toNat_or_of_not_and hnot]
  refine ⟨?_, hnot⟩
  rw [hor, two_mul w, pow_add]
  linear_combination hlow + 2 ^ w * hupper + 2 ^ w * hcarry

end Sys2Proof.Machine

/-! PROOFS. The buffer access commands: each raw write of an entry, a plane or a shape with its frame
(R90, R92, R94), and what the raw reads answer (R91, R93, R95, R96, R101). -/

namespace Sys2Proof.Machine

open Sys2Proof.Config (C WMAX)

/-! ### The frame of a write (R43) -/

theorem otherValuesKept_writeOf {i : Instr} {d : ValueBuf} (h : valueDest i = some d) (s : State) :
    OtherValuesKept s (writeOf i s) d := fun _ hv =>
  writeOf_value_get (fun hd => hv (Option.some.inj (hd.symm.trans h))) s

theorem otherLanesKept_writeOf {i : Instr} {d : LaneBuf} (h : laneDest i = some d) (s : State) :
    OtherLanesKept s (writeOf i s) d := fun _ hl =>
  writeOf_lane_get (fun hd => hl (Option.some.inj (hd.symm.trans h))) s

/-! ### Writes of one entry and of one plane (R90, R92) -/

section
variable (s : State) (x : Word)

theorem State.entry_setEntry_self (v : ValueBuf) {i : Nat} (hi : i < C) :
    (s.setEntry v i x).entry v i = x :=
  (s.entry_setEntry v v i i x).trans (if_pos ⟨rfl, rfl, hi⟩)

theorem State.entry_setEntry_of_ne (v : ValueBuf) {i j : Nat} (hj : j ≠ i) :
    (s.setEntry v i x).entry v j = s.entry v j :=
  (s.entry_setEntry v v i j x).trans (if_neg fun ⟨_, hji, _⟩ => hj hji)

theorem State.plane_setPlane_self (l : LaneBuf) {p : Nat} (hp : p < WMAX) :
    (s.setPlane l p x).plane l p = x :=
  (s.plane_setPlane l l p p x).trans (if_pos ⟨rfl, rfl, hp⟩)

theorem State.plane_setPlane_of_ne (l : LaneBuf) {p q : Nat} (hq : q ≠ p) :
    (s.setPlane l p x).plane l q = s.plane l q :=
  (s.plane_setPlane l l p q x).trans (if_neg fun ⟨_, hqp, _⟩ => hq hqp)

end

/-- Settles O24. -/
theorem wvalStoresEntry : Obligations.WvalStoresEntry := by
  intro s d idx x hidx
  have hcheck : checkOf (.wval d idx x) s = none := checkIndex_of_lt hidx
  have hothers : OtherValuesKept s (s.setEntry d idx x) d :=
    otherValuesKept_writeOf (i := .wval d idx x) rfl s
  exact ⟨_, exec_of_checkOf_none hcheck, (Written.values d _).completes 0,
    s.entry_setEntry_self x d hidx, fun _ _ hj => s.entry_setEntry_of_ne x d hj, hothers, rfl, rfl⟩

/-- Settles O25. -/
theorem wplaneStoresPlane : Obligations.WplaneStoresPlane := by
  intro s d p x hp
  have hcheck : checkOf (.wplane d p x) s = none := checkIndex_of_lt hp
  have hothers : OtherLanesKept s (s.setPlane d p x) d :=
    otherLanesKept_writeOf (i := .wplane d p x) rfl s
  exact ⟨_, exec_of_checkOf_none hcheck, (Written.plane d p x).completes 0,
    s.plane_setPlane_self x d hp, fun _ _ hj => s.plane_setPlane_of_ne x d hj,
    s.tag_setPlane d d p x, s.carry_setPlane d d p x, hothers, rfl, rfl⟩

/-! ### Reads of raw storage, of ERRACC and of the tag (R91, R93, R95, R96, R101) -/

/-- R101: the word of RSTAT holds ERRACC in bits 15:0 and zeros above. -/
theorem answerOf_rstat_getLsbD (s : State) {k : Nat} (hk : k < 32) :
    (answerOf .rstat s).getLsbD k = (decide (k < 16) && s.erracc.getLsbD k) := by
  rw [answerOf, BitVec.getLsbD_setWidth]
  by_cases hk16 : k < 16
  · simp [hk, hk16]
  · simp [hk16, BitVec.getLsbD_of_ge s.erracc k (Nat.not_lt.mp hk16)]

/-- Settles O26. -/
theorem readsReturnStorageUnchanged : Obligations.ReadsReturnStorageUnchanged := by
  refine ⟨fun s v idx h => ?_, fun s l p h => ?_, fun s l => rfl,
    fun s => ⟨answerOf .rstat s, rfl, fun _ hk => answerOf_rstat_getLsbD s hk⟩⟩
  · have hcheck : checkOf (.rval v idx) s = none := checkIndex_of_lt h
    rw [exec_of_checkOf_none hcheck, answerOf, s.entry_of_lt v h]
    rfl
  · have hcheck : checkOf (.rplane l p) s = none := checkIndex_of_lt h
    rw [exec_of_checkOf_none hcheck, answerOf, s.plane_of_lt l h]
    rfl

/-- R95: the tag word as a sum of its fields, which do not overlap: N ends below bit 16 and W below
bit 31. -/
theorem Tag.word_toNat (t : Tag) :
    t.word.toNat = t.valid.toNat * 2 ^ 31 + t.w.toNat * 2 ^ 16 + t.n.toNat * 2 ^ 10 := by
  have hvalid : t.valid.toNat ≤ 1 := t.valid.toNat_le
  have hw : t.w.toNat < 2 ^ 6 := t.w.isLt
  have hn : t.n.toNat < 2 ^ 6 := t.n.isLt
  have hlow : t.w.toNat <<< 16 ||| t.n.toNat <<< 10 = t.w.toNat * 2 ^ 16 + t.n.toNat * 2 ^ 10 := by
    rw [← Nat.shiftLeft_add_eq_or_of_lt (by rw [Nat.shiftLeft_eq]; omega), Nat.shiftLeft_eq,
      Nat.shiftLeft_eq]
  calc t.word.toNat
      = t.valid.toNat <<< 31 ||| (t.w.toNat <<< 16 ||| t.n.toNat <<< 10) := by
        simp only [Tag.word, BitVec.toNat_or, BitVec.toNat_shiftLeft, BitVec.toNat_setWidth,
          BitVec.toNat_ofBool, Nat.shiftLeft_eq, Nat.or_assoc]
        congr 2 <;> omega
    _ = t.valid.toNat * 2 ^ 31 + (t.w.toNat * 2 ^ 16 + t.n.toNat * 2 ^ 10) := by
        rw [hlow, ← Nat.shiftLeft_add_eq_or_of_lt (by omega), Nat.shiftLeft_eq]
    _ = t.valid.toNat * 2 ^ 31 + t.w.toNat * 2 ^ 16 + t.n.toNat * 2 ^ 10 :=
        (Nat.add_assoc _ _ _).symm

/-- Settles O27. -/
theorem rtagReturnsTagWord : Obligations.RtagReturnsTagWord :=
  fun s l => ⟨(s.tag l).word, rfl, (s.tag l).word_toNat⟩

/-! ### LSHAPE (R94) -/

theorem checkShape_of_mem {params : Params} {w n : Nat} (hn : n ≤ C) (hw : w ∈ params.widthSet) :
    checkShape params w n = none := by
  rw [checkShape, if_neg (Nat.not_lt.mpr hn), if_pos hw]

/-- The lane buffer that a shape was written to: its planes are those it had. -/
theorem State.lane_setShape_self (s : State) (l : LaneBuf) (w n : Nat) (c : PlaneWord) :
    (s.setShape l w n c).lane[l] = ⟨(s.lane[l]).planes, Tag.ofShape w n, c⟩ :=
  (s.lane_setLane_get l l _).trans (if_pos rfl)

/-- Settles O29. -/
theorem lshapeDeclaresShape : Obligations.LshapeDeclaresShape := by
  intro s d w n hparams hw hn
  have hcheck : checkOf (.lshape d w n) s = none := checkShape_of_mem hn hw
  have hlane : (s.setShape d w n 0).lane[d] = ⟨(s.lane[d]).planes, Tag.ofShape w n, 0⟩ :=
    s.lane_setShape_self d w n 0
  have htag : (s.setShape d w n 0).tag d = Tag.ofShape w n := congrArg LaneBuffer.tag hlane
  have hplanes : ((s.setShape d w n 0).lane[d]).planes = (s.lane[d]).planes := by
    rw [hlane]
  obtain ⟨htagW, htagN⟩ := State.shape_of_tag htag (width_bounds_of_mem hparams hw).2 hn
  have hothers : OtherLanesKept s (s.setShape d w n 0) d :=
    otherLanesKept_writeOf (i := .lshape d w n) rfl s
  exact ⟨_, exec_of_checkOf_none hcheck, (Written.shape d hn hw).completes 0,
    congrArg Tag.valid htag, htagW, htagN, congrArg LaneBuffer.carry hlane, hplanes, hothers,
    rfl, rfl⟩

end Sys2Proof.Machine

/-! PROOFS. The control commands NOP and CLRSTAT, which no check can stop (R100, R102). -/

namespace Sys2Proof.Machine

/-- Settles O31: both commands pass their empty checks, so each completes with what it writes,
nothing for NOP and ERRACC for CLRSTAT, and answers data 0. -/
theorem nopAndClrstat : Obligations.NopAndClrstat := by
  intro s
  have hnop : checkOf .nop s = none := rfl
  have hclrstat : checkOf .clrstat s = none := rfl
  exact ⟨exec_of_checkOf_none hnop, exec_of_checkOf_none hclrstat⟩

end Sys2Proof.Machine

/-! PROOFS. Exceptions: the error a command reports is the first of R122's order whose cause is present
(R120), and a block with nothing offered waits in IDLE (R131). -/

namespace Sys2Proof.Machine

open Sys2Proof.Config (C WMAX)

/-- Settles O14. -/
theorem idleBlockWaits : Obligations.IdleBlockWaits :=
  fun _ hphase hheld hin => step_of_empty hphase hheld hin

/-! ### The first error of a list that applies (R122) -/

section
variable {applies : ErrCode → Prop} {e x : ErrCode} {xs : List ErrCode}

theorem firstError_cons_of_applies (h : applies x) : FirstError applies (x :: xs) e ↔ e = x := by
  simp [FirstError, h]

theorem firstError_cons_of_not_applies (h : ¬applies x) :
    FirstError applies (x :: xs) e ↔ FirstError applies xs e := by
  simp [FirstError, h]

theorem firstError_ok_of_none_applies (h : ∀ f ∈ xs, ¬applies f) : FirstError applies xs .ok := by
  induction xs with
  | nil => rfl
  | cons x xs ih =>
    obtain ⟨hx, hxs⟩ := List.forall_mem_cons.mp h
    exact (firstError_cons_of_not_applies hx).mpr (ih hxs)

/-- An error with none of the earlier ones applying is the first. -/
theorem firstError_append_of_applies {pre : List ErrCode} (hpre : ∀ f ∈ pre, ¬applies f)
    (h : applies e) : FirstError applies (pre ++ e :: xs) e := by
  induction pre with
  | nil => exact (firstError_cons_of_applies h).mpr rfl
  | cons x pre ih =>
    obtain ⟨hx, hrest⟩ := List.forall_mem_cons.mp hpre
    exact (firstError_cons_of_not_applies hx).mpr (ih hrest)

end

/-! ### The checks of a command find the first cause of R120 in R122's order -/

/-- A command whose only cause of an error is an index out of range (R56). -/
theorem firstError_checkIndex {applies : ErrCode → Prop} {idx bound : Nat}
    (hindex : applies .index ↔ bound ≤ idx) (hothers : ∀ f ∈ errorOrder, f ≠ .index → ¬applies f) :
    FirstError applies errorOrder ((checkIndex idx bound).getD .ok) := by
  rcases Nat.lt_or_ge idx bound with hlt | hge
  · rw [checkIndex_of_lt hlt]
    refine firstError_ok_of_none_applies fun f hf => ?_
    by_cases hfi : f = .index
    · rw [hfi, hindex]
      exact Nat.not_le.mpr hlt
    · exact hothers f hf hfi
  · rw [checkIndex_of_le hge]
    have hcapacity : ¬applies .capacity := hothers _ (by decide) (by decide)
    have hwidth : ¬applies .width := hothers _ (by decide) (by decide)
    exact firstError_append_of_applies (pre := [.capacity, .width])
      (by simp [hcapacity, hwidth]) (hindex.mpr hge)

theorem firstError_checkShape (s : State) (d : LaneBuf) (w n : Nat) :
    FirstError (ErrorApplies (.lshape d w n) s) errorOrder ((checkShape s.params w n).getD .ok) := by
  rcases checkShape_cases s.params w n with ⟨hn, e⟩ | ⟨hn, hw, e⟩ | ⟨hn, hw, e⟩ <;> rw [e]
  · exact firstError_append_of_applies (pre := []) (by simp) hn
  · exact firstError_append_of_applies (pre := [.capacity]) (by simpa [ErrorApplies] using hn) hw
  · exact firstError_ok_of_none_applies (by simp [errorOrder, ErrorApplies, hn, hw])

theorem firstError_encodeCheck (s : State) (d : LaneBuf) (v : ValueBuf) (w n : Nat) (x : Bool) :
    FirstError (ErrorApplies (.encode d v w n x) s) errorOrder
      ((encodeCheck s v w n x).getD .ok) := by
  rcases encodeCheck_cases s v w n x with
    ⟨hn, e⟩ | ⟨hn, hw, e⟩ | ⟨hn, hw, hx, hrange, e⟩ | ⟨hn, hw, hrange, e⟩ <;> rw [e]
  · exact firstError_append_of_applies (pre := []) (by simp) hn
  · exact firstError_append_of_applies (pre := [.capacity]) (by simpa [ErrorApplies] using hn) hw
  · exact firstError_append_of_applies
      (pre := [.capacity, .width, .index, .uninit, .aliasing, .shape])
      (by simp [ErrorApplies, hn, hw]) ⟨hx, hrange⟩
  · exact firstError_ok_of_none_applies (by simpa [errorOrder, ErrorApplies, hn, hw] using hrange)

theorem firstError_decodeCheck (s : State) (d : ValueBuf) (l : LaneBuf) :
    FirstError (ErrorApplies (.decode d l) s) errorOrder ((decodeCheck s l).getD .ok) := by
  cases h : (s.tag l).valid with
  | true =>
    rw [decodeCheck_of_valid h]
    exact firstError_ok_of_none_applies (by simp [errorOrder, ErrorApplies, h])
  | false =>
    rw [decodeCheck_of_not_valid h]
    exact firstError_append_of_applies (pre := [.capacity, .width, .index])
      (by simp [ErrorApplies]) h

theorem firstError_addCheck (s : State) (d a b : LaneBuf) :
    FirstError (ErrorApplies (.add d a b) s) errorOrder ((addCheck s d a b).getD .ok) := by
  rcases addCheck_cases s d a b with
    ⟨hvalid, e⟩ | ⟨ha, hb, hd, e⟩ | ⟨ha, hb, hda, hdb, hshape, e⟩ | ⟨ha, htag, hda, hdb, e⟩ <;> rw [e]
  · exact firstError_append_of_applies (pre := [.capacity, .width, .index])
      (by simp [ErrorApplies]) hvalid
  · exact firstError_append_of_applies (pre := [.capacity, .width, .index, .uninit])
      (by simp [ErrorApplies, ha, hb]) hd
  · exact firstError_append_of_applies (pre := [.capacity, .width, .index, .uninit, .aliasing])
      (by simp [ErrorApplies, ha, hb, hda, hdb]) hshape
  · exact firstError_ok_of_none_applies (by simp [errorOrder, ErrorApplies, ha, htag, hda, hdb])

/-- R122 for every command: the causes of R120 that it has, in their order, are what its checks test. -/
theorem firstError_checkOf (i : Instr) (s : State) :
    FirstError (ErrorApplies i s) errorOrder ((checkOf i s).getD .ok) := by
  cases i with
  | wval | rval | wplane | rplane =>
    exact firstError_checkIndex Iff.rfl (by simp [errorOrder, ErrorApplies])
  | lshape d w n => exact firstError_checkShape s d w n
  | encode d v w n x => exact firstError_encodeCheck s d v w n x
  | decode d l => exact firstError_decodeCheck s d l
  | add d a b => exact firstError_addCheck s d a b
  | nop | rtag | rcarry | rstat | clrstat | rdcfg =>
    exact firstError_ok_of_none_applies (by simp [errorOrder, ErrorApplies])

/-- The code in the response of a command is the one its checks found, or OK. -/
theorem exec_reports_checkOf (i : Instr) (s : State) :
    ∃ t x, exec i s = .next t ∧ t.phase = .resp ⟨((checkOf i s).getD .ok).code, x⟩ := by
  rw [exec_eq_guarded]
  cases checkOf i s with
  | none => exact ⟨_, answerOf i s, guarded_none _ _, rfl⟩
  | some e => exact ⟨_, 0, guarded_some _ _ _, rfl⟩

/-- Settles O18: a word that does not decode raises ILLEGAL, and the checks of a command test the causes
of R120 in R122's order. -/
theorem firstApplicableErrorIsReported : Obligations.FirstApplicableErrorIsReported := by
  intro s c
  cases hdec : decodeCommand c.word c.data with
  | error err =>
    exact ⟨_, .illegal, 0, executeCommand_of_error hdec s, rfl, fun _ _ => rfl, nofun⟩
  | ok i =>
    obtain ⟨t, x, hexec, hphase⟩ := exec_reports_checkOf i s
    refine ⟨t, _, x, (executeCommand_of_ok hdec s).trans hexec, hphase, nofun, fun j hj => ?_⟩
    obtain rfl : i = j := Except.ok.inj hj
    exact firstError_checkOf i s

end Sys2Proof.Machine

/-! PROOFS. Reset at an edge and at a step (R140 to R142), and the offer that an edge did not accept (R146,
R147): the edges with `rst` high, and what every edge with `cmd_ready` = 0 remembers. -/

namespace Sys2Proof.Machine

/-! ### The state of R140 -/

theorem State.reset_value_get (v : ValueBuf) : State.reset.value[v] = zeroValues := by
  simp [State.reset]

/-- R140 reads the buffers, ERRACC, the phase and the latch; the host's side and the parameters are free. -/
theorem State.cleared_of_reset_values {s : State} (hvalue : s.value = State.reset.value)
    (hlane : s.lane = State.reset.lane) (herracc : s.erracc = State.reset.erracc)
    (hphase : s.phase = State.reset.phase) (hlatched : s.latched = State.reset.latched) :
    s.Cleared where
  entries v i hi := by
    rw [s.entry_of_lt v hi, hvalue, State.reset_value_get, zeroValues, Vector.getElem_replicate]
  planes l p hp := by
    rw [s.plane_of_lt l hp, hlane, State.reset_lane_get, LaneBuffer.cleared,
      Vector.getElem_replicate]
  tags l := by rw [State.tag, hlane, State.reset_lane_get]; rfl
  carries l := by rw [State.carry, hlane, State.reset_lane_get]; rfl
  erracc := herracc
  phase := hphase
  latched := hlatched

theorem State.resetBlock_cleared (s : State) : s.resetBlock.Cleared :=
  State.cleared_of_reset_values rfl rfl rfl rfl rfl

/-- Recording an offer touches no register of the block. -/
theorem State.Cleared.holdOffer {s : State} (h : s.Cleared) (p : Pins) : (s.holdOffer p).Cleared :=
  ⟨h.entries, h.planes, h.tags, h.carries, h.erracc, h.phase, h.latched⟩

theorem State.cfg_resetBlock (s : State) : s.resetBlock.cfg = s.cfg := rfl

/-- Settles O1. -/
theorem resetClearsEveryRegister : Obligations.ResetClearsEveryRegister :=
  ⟨State.cleared_of_reset_values rfl rfl rfl rfl rfl, by decide,
    fun s => ⟨s.resetBlock_cleared, s.cfg_resetBlock⟩⟩

/-! ### The ports (R141, R145) -/

theorem State.cmdReady_eq_true {s : State} {rst : Bool} :
    s.cmdReady rst = true ↔ rst = false ∧ s.phase = .idle := by
  simp [State.cmdReady]

theorem State.rspPort_of_rst (s : State) : s.rspPort true = none := rfl

theorem State.rspPort_of_resp {s : State} {r : Response} (h : s.phase = .resp r) :
    s.rspPort false = some r := by
  simp only [State.rspPort, h]

/-- R145: a response is offered in RESP only. -/
theorem State.rspPort_eq_none {s : State} (h : ∀ r, s.phase ≠ .resp r) : s.rspPort false = none := by
  unfold State.rspPort
  split
  · next r _ hphase => exact absurd hphase (h r)
  · rfl

/-! ### Edges at which the host keeps its offer -/

/-- An edge answers a next state only if it keeps the earlier offer: a cleared block with `rst` high, and
the sequencer's with `rst` low. -/
theorem clockEdge_eq_next {s t : State} {p : Pins} : clockEdge p s = .next t ↔
    s.offerKept p = true ∧ (p.rst = true ∧ t = s.resetBlock.holdOffer p ∨
      p.rst = false ∧ sequencerEdge p s = .next t) := by
  unfold clockEdge
  cases s.offerKept p <;> cases p.rst <;> simp [eq_comm]

/-- The same for an edge with `rst` high, whatever was held. -/
theorem clockEdge_of_rst_of_offerKept {s : State} {p : Pins} (hkept : s.offerKept p = true)
    (hrst : p.rst = true) : clockEdge p s = .next (s.resetBlock.holdOffer p) :=
  clockEdge_eq_next.mpr ⟨hkept, .inl ⟨hrst, rfl⟩⟩

/-- Settles O3. -/
theorem resetEdgeAbandonsCommand : Obligations.ResetEdgeAbandonsCommand := by
  intro s p hkept hrst
  have hcleared := s.resetBlock_cleared.holdOffer p
  exact ⟨rfl, s.rspPort_of_rst, _, clockEdge_of_rst_of_offerKept hkept hrst, hcleared,
    s.cfg_resetBlock, rfl, State.cmdReady_eq_true.mpr ⟨rfl, hcleared.phase⟩,
    State.rspPort_eq_none fun _ => by rw [hcleared.phase]; exact nofun⟩

/-- The host of a step keeps the offer it holds. -/
theorem State.offerKept_hostPins (s : State) (rst : Bool) : s.offerKept (s.hostPins rst) = true := by
  unfold State.offerKept
  rw [s.hostPins_offer rst]
  cases s.held with
  | none => rfl
  | some c => exact decide_eq_true rfl

/-- Settles O15. -/
theorem resetStepClears : Obligations.ResetStepClears := by
  intro s rest hin
  have hstep : step s = clockEdge (s.hostPins true) { s with inbox := rest } := by
    simp only [step, hin]
  rw [hstep]
  exact ⟨_, clockEdge_of_rst_of_offerKept (s.offerKept_hostPins true) rfl,
    (State.resetBlock_cleared _).holdOffer _, rfl, rfl, rfl⟩

/-! ### What an edge with `cmd_ready` = 0 remembers (R146 duty (a)) -/

section
variable {s t : State} {p : Pins}

theorem held_of_andThen_holdOffer {o : StepResult}
    (h : andThen o (fun u => .next (u.holdOffer p)) = .next t) : t.held = p.offer := by
  obtain ⟨u, _, hu⟩ := andThen_eq_next.mp h
  obtain rfl := Host.Outcome.next.inj hu
  exact u.holdOffer_held p

/-- Outside IDLE the sequencer accepts nothing, and each of its edges ends by recording the offer. -/
theorem sequencerEdge_held (hphase : s.phase ≠ .idle) (h : sequencerEdge p s = .next t) :
    t.held = p.offer := by
  have hnext {u : State} (hu : (.next (u.holdOffer p) : StepResult) = .next t) : t.held = p.offer :=
    held_of_andThen_holdOffer (o := .next u) hu
  cases hp : s.phase with
  | idle => exact absurd hp hphase
  | check | run =>
    cases hl : s.latched with
    | none =>
      simp only [sequencerEdge, hp, hl] at h
      exact hnext h
    | some c =>
      simp only [sequencerEdge, hp, hl] at h
      exact held_of_andThen_holdOffer h
  | resp r =>
    simp only [sequencerEdge, hp] at h
    split at h
    · exact held_of_andThen_holdOffer h
    · exact hnext h

theorem clockEdge_held (hready : s.cmdReady p.rst = false) (h : clockEdge p s = .next t) :
    t.held = p.offer := by
  obtain ⟨_, ⟨_, rfl⟩ | ⟨hrst, hseq⟩⟩ := clockEdge_eq_next.mp h
  · exact State.holdOffer_held _ p
  · refine sequencerEdge_held (fun hidle => ?_) hseq
    rw [State.cmdReady_eq_true.mpr ⟨hrst, hidle⟩] at hready
    exact nomatch hready

/-- R147: an edge that does not offer again what is held is refused. -/
theorem clockEdge_refuses {c : Command} (hheld : s.held = some c) (hoffer : p.offer ≠ some c) :
    clockEdge p s = .refused .offerNotHeld := by
  have hkept : s.offerKept p = false := by simp [State.offerKept, hheld, hoffer]
  simp [clockEdge, hkept]

end

/-- Settles O4. -/
theorem brokenOfferIsRefused : Obligations.BrokenOfferIsRefused :=
  fun _ _ _ _ _ hp hready hnext hq => clockEdge_refuses ((clockEdge_held hready hnext).trans hp) hq

end Sys2Proof.Machine

/-! PROOFS. The latency of a command (R150, R152): the block is BUSY until it is over, how many work steps a
command makes, and their bound in a legal state. -/

namespace Sys2Proof.Machine

open Sys2Proof.Config (C WMAX)

/-! ### BUSY until the latency is over (R150, R151) -/

/-- The block is in BUSY: in the check cycle or before a work step (R151). -/
inductive State.Busy (s : State) : Prop
  | check (h : s.phase = .check)
  | run {k : Nat} {running : PlaneWord} (h : s.phase = .run k running)

/-- R145: in BUSY no response is offered and no command is accepted. -/
theorem State.Busy.ports {s : State} (h : s.Busy) :
    s.rspPort false = none ∧ s.cmdReady false = false := by
  cases h with
  | check hphase => simp [State.rspPort, State.cmdReady, hphase]
  | run hphase => simp [State.rspPort, State.cmdReady, hphase]

/-- The first `k` of its work steps take a sequence to the state before step `k`. -/
theorem Sequenced.clockRun_atStep {c : Command} {total : Nat} {v : Nat → State}
    {r : Nat → PlaneWord} {done : State} (h : Sequenced c total v r done) (ready : Bool) {k : Nat}
    (hk : k < total) :
    clockRun (List.replicate k (.offering none ready)) ((v 0).atStep 0 (r 0)) =
      .next ((v k).atStep k (r k)) := by
  induction k with
  | zero => rfl
  | succ k ih =>
    have hedge := h.edge k (by omega)
    rw [advance_of_lt hk] at hedge
    rw [List.replicate_succ', clockRun_append, ih (by omega), andThen_next, clockRun_singleton]
    exact clockEdge_of_run (s := (v k).atStep k (r k)) (t := State.atStep ..) (h.held k)
      (h.latched k) (h.held (k + 1)) ready rfl hedge

theorem commandSteps_of_error {c : Command} {err : DecodeError}
    (h : decodeCommand c.word c.data = .error err) (s : State) : commandSteps c s = 0 := by
  simp only [commandSteps, h]

theorem commandSteps_of_ok {c : Command} {i : Instr} (h : decodeCommand c.word c.data = .ok i)
    (s : State) : commandSteps c s = workSteps i s := by
  simp only [commandSteps, h]

/-- From its acceptance to its last work step a command keeps the block in BUSY. -/
theorem clockRun_keeps_busy {s : State} {c : Command} (hlatched : s.latched = some c)
    (hheld : s.held = none) (hphase : s.phase = .check) (ready : Bool) {k : Nat}
    (hk : k ≤ commandSteps c s) :
    ∃ t, clockRun (List.replicate k (.offering none ready)) s = .next t ∧ t.Busy := by
  cases k with
  | zero => exact ⟨s, rfl, .check hphase⟩
  | succ k =>
    have hcheck : checkEdge c s = .next (s.atStep 0 0) := if_neg (by omega)
    have hclock := clockEdge_of_check (t := s.atStep 0 0) hheld hlatched hheld ready hphase hcheck
    cases hdec : decodeCommand c.word c.data with
    | error err => exact absurd (commandSteps_of_error hdec s) (by omega)
    | ok i =>
      have hwork := commandSteps_of_ok hdec s
      obtain ⟨v, r, hv, hr, done, _, hseq⟩ := exists_sequenced hlatched hheld hdec (by omega)
      have hrun := hseq.clockRun_atStep ready (k := k) (by omega)
      rw [hv, hr] at hrun
      exact ⟨_, by rw [List.replicate_succ, clockRun, hclock, andThen_next, hrun], .run rfl⟩

/-! ### How many work steps a command makes (R150) -/

/-- The work steps of a command that raises no error: W for ENCODE and ADD, N for DECODE. -/
def fullSteps (i : Instr) (s : State) : Nat :=
  match i with
  | .encode _ _ w _ _ => w
  | .add _ a _ => s.tagW a
  | .decode _ src => s.tagN src
  | .nop | .wval _ _ _ | .rval _ _ | .wplane _ _ _ | .rplane _ _ | .lshape _ _ _ | .rtag _
  | .rcarry _ | .rstat | .clrstat | .rdcfg => 0

theorem workSteps_of_checkOf_none {i : Instr} {s : State} (h : checkOf i s = none) :
    workSteps i s = fullSteps i s := by
  cases i with
  | encode | decode | add => exact if_pos (Option.isNone_iff_eq_none.mpr h)
  | nop | wval | rval | wplane | rplane | lshape | rtag | rcarry | rstat | clrstat | rdcfg => rfl

theorem workSteps_of_checkOf_some {i : Instr} {s : State} {e : ErrCode} (h : checkOf i s = some e) :
    workSteps i s = 0 := by
  by_contra hsteps
  exact nomatch (checkOf_none_of_workSteps hsteps).symm.trans h

/-- R150: the response tells the number of work steps, none with an error. -/
theorem executeCommand_response_steps (c : Command) (s : State) :
    ∃ t r, executeCommand c s = .next t ∧ t.phase = .resp r ∧
      (r.err ≠ 0 → commandSteps c s = 0) ∧
      (r.err = 0 → ∀ i, decodeCommand c.word c.data = .ok i → commandSteps c s = fullSteps i s) := by
  cases hdec : decodeCommand c.word c.data with
  | error err =>
    exact ⟨_, _, executeCommand_of_error hdec s, rfl, fun _ => commandSteps_of_error hdec s, nofun⟩
  | ok i =>
    obtain ⟨t, hexec, _⟩ := exec_effect i s
    rw [executeCommand_of_ok hdec, commandSteps_of_ok hdec, hexec]
    rcases exec_eq_next hexec with ⟨e, he, hcheck, rfl⟩ | ⟨hcheck, rfl⟩
    · exact ⟨_, _, rfl, rfl, fun _ => workSteps_of_checkOf_some hcheck,
        fun hok => absurd (ErrCode.code_injective (f := .ok) hok) he⟩
    · refine ⟨_, _, rfl, rfl, fun herr => absurd rfl herr, fun _ j hj => ?_⟩
      obtain rfl : i = j := Except.ok.inj hj
      exact workSteps_of_checkOf_none hcheck

/-! ### The bound of the latency (R152) -/

theorem valid_of_decodeCheck {s : State} {l : LaneBuf} (h : decodeCheck s l = none) :
    (s.tag l).valid = true := by
  by_contra hvalid
  exact nomatch h.symm.trans (decodeCheck_of_not_valid (Bool.eq_false_iff.mpr hvalid))

/-- R25: the shape of a valid tag in a legal state is within the storage. -/
theorem State.Legal.shape_bounds {s : State} (h : s.Legal) {l : LaneBuf}
    (hvalid : (s.tag l).valid = true) : s.tagW l ≤ WMAX ∧ s.tagN l ≤ C := by
  obtain ⟨⟨hshape, _⟩, _⟩ := h.lanes l
  obtain ⟨hw, hn⟩ := hshape hvalid
  exact ⟨(width_bounds_of_mem h.params hw).2, hn⟩

theorem fullSteps_le {s : State} (h : s.Legal) {i : Instr} (hcheck : checkOf i s = none) :
    fullSteps i s ≤ max WMAX C := by
  cases i with
  | encode d src w n x =>
    obtain ⟨_, hw⟩ := legalShape_of_encodeCheck hcheck
    exact le_max_of_le_left (width_bounds_of_mem h.params hw).2
  | add d a b => exact le_max_of_le_left (h.shape_bounds (valid_of_addCheck hcheck)).1
  | decode d src => exact le_max_of_le_right (h.shape_bounds (valid_of_decodeCheck hcheck)).2
  | nop | wval | rval | wplane | rplane | lshape | rtag | rcarry | rstat | clrstat | rdcfg =>
    exact Nat.zero_le _

theorem commandSteps_le {s : State} (h : s.Legal) (c : Command) : commandSteps c s ≤ max WMAX C := by
  cases hdec : decodeCommand c.word c.data with
  | error err => rw [commandSteps_of_error hdec]; exact Nat.zero_le _
  | ok i =>
    rw [commandSteps_of_ok hdec]
    cases hcheck : checkOf i s with
    | none => exact (workSteps_of_checkOf_none hcheck).trans_le (fullSteps_le h hcheck)
    | some e => rw [workSteps_of_checkOf_some hcheck]; exact Nat.zero_le _

/-- Settles O50: BUSY before the latency, the response of the atomic command at it (O48), and the bound. -/
theorem responseComesAtLatency : Obligations.ResponseComesAtLatency := by
  intro s c ready h
  obtain ⟨hidle, _, hheld⟩ := h.quiet
  refine ⟨fun k hk => ?_, ?_, Nat.add_le_add_left (commandSteps_le h c) 1⟩
  · obtain ⟨t, hrun, hbusy⟩ :=
      clockRun_keeps_busy (s := s.accept c) (c := c) rfl rfl rfl ready (k := k) hk
    exact ⟨t, (clockRun_commandEdges hidle hheld c k ready).trans hrun, hbusy.ports⟩
  · obtain ⟨t, r, hexec, hresp, herr, hok⟩ := executeCommand_response_steps c (s.accept c)
    rw [clockedCommandEqualsAtomicCommand s c ready hidle hheld]
    refine ⟨t, r, hexec, State.rspPort_of_resp hresp, herr, fun hcode i hdec => ?_⟩
    have hsteps := hok hcode i hdec
    cases i <;> exact hsteps

end Sys2Proof.Machine
